-- ==== Sys2Proof/Word.lean ====
section
/-! DEFINITION. The widths of the values the block holds and moves (00_scope.md R7, R9; 10_state.md R20;
20_memory.md R50). Every value is unsigned; 32-bit addition is `BitVec` addition, which wraps (R10 `+32`, R146). -/

namespace Sys2Proof

/-- One byte of `KSRC`, `KTAB`, or of a command's `ARG` field. -/
abbrev Byte := BitVec 8

/-- The width of `CRC` and of `KSRC_LEN` (R20). -/
abbrev Half := BitVec 16

/-- A word of the host bus, of `DATA0`, `DATA1` and of the key table's word view (R7, R50). -/
abbrev Word := BitVec 32

/-- A byte offset inside the block's window: `0 <= off < 0x4000`, which is exactly 14 bits (R50, R8). -/
abbrev Offset := BitVec 14

end Sys2Proof
end

