-- ==== Sys2Proof/Syntax.lean ====
section
/-! DEFINITION. The commands of the block: one constructor for each row of spec/opcode_table.json
(30_encoding.md R84). -/

namespace Sys2Proof

/-- A command of the block. The only explicit operand of any command is the byte of `CRC_UPDATE` (R82); every other
operand is implicit in the block's state. -/
inductive Instr where
  /-- `CRC_INIT`: starts a new checksum (R104). -/
  | crcInit
  /-- `CRC_UPDATE b`: folds one byte into the running checksum (R105). -/
  | crcUpdate (b : Byte)
  /-- `KT_BUILD`: derives the key table from the key source (R120). -/
  | ktBuild
  /-- `CIPHER_FWD`: enciphers the block (`DATA0`, `DATA1`) in place (R142). -/
  | cipherFwd
  /-- `CIPHER_REV`: deciphers the block (`DATA0`, `DATA1`) in place (R143). -/
  | cipherRev
  deriving DecidableEq, Repr

end Sys2Proof
end

