-- ==== Sys2Proof/Decode.lean ====
section
/-! DEFINITION. Decoding a 32-bit command word (30_encoding.md R80–R87), total on every word and rejecting by name;
then the encoder, and the opcode map as rows of match and mask (R84). -/

namespace Sys2Proof

/-- Why a word is no command: the three cases (a), (b), (c) of R86. All three behave identically (R87). -/
inductive IllegalWord where
  /-- (a) `RSVD != 0`. -/
  | reservedNotZero
  /-- (b) `OP` is none of 0x01, 0x02, 0x10, 0x20, 0x21. -/
  | unassignedOp
  /-- (c) `OP` in {0x01, 0x10, 0x20, 0x21} with `ARG != 0`. -/
  | argNotZero
  deriving DecidableEq, Repr

/-- Field `OP`, bits 7:0 (R80). -/
def cmdOp (w : Word) : Byte := w.extractLsb' 0 8

/-- Field `ARG`, bits 15:8 (R80). -/
def cmdArg (w : Word) : Byte := w.extractLsb' 8 8

/-- Field `RSVD`, bits 31:16 (R80). -/
def cmdRsvd (w : Word) : Half := w.extractLsb' 16 16

/-- A command that takes no operand is legal only with `ARG = 0` (R83). -/
def withoutArg (arg : Byte) (i : Instr) : Except IllegalWord Instr :=
  if arg = 0 then .ok i else .error .argNotZero

/-- The decoder, in the order of R85's `Execute`. -/
def decode (w : Word) : Except IllegalWord Instr :=
  if cmdRsvd w ≠ 0 then .error .reservedNotZero
  else if cmdOp w = 0x01 then withoutArg (cmdArg w) .crcInit
  else if cmdOp w = 0x02 then .ok (.crcUpdate (cmdArg w))
  else if cmdOp w = 0x10 then withoutArg (cmdArg w) .ktBuild
  else if cmdOp w = 0x20 then withoutArg (cmdArg w) .cipherFwd
  else if cmdOp w = 0x21 then withoutArg (cmdArg w) .cipherRev
  else .error .unassignedOp

/-- A command word laid out from its fields: `RSVD || ARG || OP` from the most significant end, `RSVD = 0` (R80). -/
def cmdWord (op arg : Byte) : Word := op.setWidth 32 ||| (arg.setWidth 32 <<< 8)

/-- The word of a command, from the opcode map's OP column (R84) and R89's expansions. -/
def encode : Instr → Word
  | .crcInit => cmdWord 0x01 0
  | .crcUpdate b => cmdWord 0x02 b
  | .ktBuild => cmdWord 0x10 0
  | .cipherFwd => cmdWord 0x20 0
  | .cipherRev => cmdWord 0x21 0

/-- One row of the opcode map: the word's bits under `mask` are `pattern` (R84). -/
structure OpRow where
  mnemonic : String
  pattern : Word
  mask : Word
  deriving DecidableEq, Repr

/-- "A word `w` is the command of a row exactly when `w AND mask = match`" (R84). -/
def OpRow.matchesWord (r : OpRow) (w : Word) : Bool := w &&& r.mask == r.pattern

/-- The opcode map, complete (R84). -/
def opcodeMap : List OpRow :=
  [⟨"CRC_INIT", 0x00000001, 0xFFFFFFFF⟩,
   ⟨"CRC_UPDATE", 0x00000002, 0xFFFF00FF⟩,
   ⟨"KT_BUILD", 0x00000010, 0xFFFFFFFF⟩,
   ⟨"CIPHER_FWD", 0x00000020, 0xFFFFFFFF⟩,
   ⟨"CIPHER_REV", 0x00000021, 0xFFFFFFFF⟩]

/-- The mnemonic of a command, as the opcode map spells it (R84). -/
def Instr.mnemonic : Instr → String
  | .crcInit => "CRC_INIT"
  | .crcUpdate _ => "CRC_UPDATE"
  | .ktBuild => "KT_BUILD"
  | .cipherFwd => "CIPHER_FWD"
  | .cipherRev => "CIPHER_REV"

/-- The instruction the decoder reads from a table word `w` of `nbits` bits: a command is exactly one 32-bit word
(R81), whose bits above `nbits` are 0. A longer value is no command. -/
def decodeTableWord (nbits w : Nat) : Option Instr :=
  let v := w % 2 ^ nbits
  if v < 2 ^ 32 then (decode (BitVec.ofNat 32 v)).toOption else none

end Sys2Proof
end

