-- ==== Sys2Proof/Config.lean ====
section
/-! DEFINITION. What is fixed for the block: its sizes, which the spec calls "fixed, not parameters" (00_scope.md
R7), and the one open parameter, the window's base address `BASE` (R8, 93_implementation_defined.md I6). -/

namespace Sys2Proof.Config

/-- Bytes of the key-source memory `KSRC`: 4096 (R7, R24). -/
abbrev ksrcSize : Nat := 0x1000

/-- Bytes of the key table's header segment: 72 (R7, R27). -/
abbrev headerSize : Nat := 0x48

/-- Bytes of the key-table memory `KTAB`: 4168 (R7, R26). -/
abbrev ktabSize : Nat := 0x1048

/-- Words of the key table's little-endian word view: 1042 (R7, R11). -/
abbrev ktabWords : Nat := 1042

/-- Bytes of the block's window on the platform: 0x4000 (R8, R30). -/
abbrev windowSize : Nat := 0x4000

/-- Which 0x4000-byte window of the platform the block sits in: the platform's choice, a constant with no value
here (I6; log entry 7). -/
opaque windowIndex : Nat

/-- The platform parameter `BASE`, a multiple of 0x4000 (R8). No rule depends on its value. -/
def base : Nat := windowSize * windowIndex

end Sys2Proof.Config
end

