-- ==== Sys2Proof/Machine/Bus.lean ====
section
/-! DEFINITION. What passes over the host bus (20_memory.md R50, R51; 00_scope.md R13): the two kinds of transaction,
the responses, and the events the block meets one at a time. -/

namespace Sys2Proof.Machine

/-- "There are exactly two transaction kinds" (R51). `size` is in bytes and may be any number (R52 refuses all but 4).
The data path has 32 bits (R50): `data` is what a write drives onto it (log entry 6). -/
inductive Access where
  | read (size : Nat)
  | write (size : Nat) (data : Word)
  deriving DecidableEq, Repr

/-- One transaction at a byte offset inside the window (R50). -/
structure Transaction where
  off : Offset
  access : Access
  deriving DecidableEq, Repr

/-- The size a transaction asks for, in bytes (R50). -/
def Access.size : Access → Nat
  | .read n => n
  | .write n _ => n

/-- The block's answer: `OK(data)` or `BUS_ERROR` to a read, `OK` or `BUS_ERROR` to a write (R51). -/
inductive Response where
  | data (w : Word)
  | ok
  | busError
  deriving DecidableEq, Repr

/-- What the outside world does to the block: a bus transaction (R13), or the reset event, "distinct from bus
transactions" (70_reset_and_hazards.md R200) and always between two of them (R201). -/
inductive Event where
  | txn (t : Transaction)
  | reset
  deriving DecidableEq, Repr

/-- The 32-bit read a host program writes `RD` (30_encoding.md R88). -/
def Event.rd (off : Offset) : Event := .txn ⟨off, .read 4⟩

/-- The 32-bit write a host program writes `WR` (30_encoding.md R88). -/
def Event.wr (off : Offset) (data : Word) : Event := .txn ⟨off, .write 4 data⟩

/-- The write of a command word to CMD, offset 0x0000 (10_state.md R31). -/
def Event.command (w : Word) : Event := .wr 0x0000 w

end Sys2Proof.Machine
end

