-- ==== Sys2Proof/Machine/State.lean ====
section
/-! DEFINITION. The block's whole architectural state (10_state.md R20, "the following list and nothing else"), beside
it the model's own two fields for the bus, the error codes, the ways a step can stop, and the state after reset (R41). -/

namespace Sys2Proof.Machine

/-- A byte memory as its written bytes, addresses strictly rising. A byte that is not listed has not been written since
reset: its presence is the model-only "written since reset" mark of R40, and an unlisted byte has no value
(93_implementation_defined.md I1; log entry 3). -/
abbrev Memory := List Host.Cell

/-- The error codes of `STATUS.LAST_ERR` (60_exceptions.md R171). -/
inductive ErrorCode where
  /-- Code 0: every legal command that completes. -/
  | none
  /-- Code 1: raised by `KT_BUILD` only (R173). -/
  | invalidInputSize
  /-- Code 2: raised by a CMD write of an illegal word (R174). -/
  | illegalCommand
  deriving DecidableEq, Repr

/-- The state of the block (R20), and the bus as the model holds it. -/
structure State where
  /-- `CRC`, 16 bits (R23). -/
  crc : Half
  /-- `KSRC`, 4096 bytes, the key-source block (R24). -/
  ksrc : Memory
  /-- `KSRC_LEN`, 16 bits, the declared length of the key source in bytes (R25). -/
  ksrcLen : Half
  /-- `KTAB`, 4168 bytes, the key table (R26). -/
  ktab : Memory
  /-- `DATA0`, 32 bits, the cipher word `buf[offset]` (R28). -/
  data0 : Word
  /-- `DATA1`, 32 bits, the cipher word `buf[offset+1]` (R28). -/
  data1 : Word
  /-- `STATUS.LAST_ERR`, 4 bits (R29). -/
  lastErr : BitVec 4
  /-- `STATUS.ERR_STICKY`, 1 bit (R29). -/
  errSticky : Bool
  /-- The model's own: the events the outside world has in store for the block, the next one first (log entry 1). -/
  pending : List Event
  /-- The model's own: the responses the block has given, the latest first (log entry 2). -/
  responses : List Response
  deriving DecidableEq, Repr

/-- Why the machine stops. Each of the four is the spec's own "fault when consumed" (93_implementation_defined.md I1,
decision D28): the hardware goes on with whatever byte the memory holds, the model proves nothing past the point. -/
inductive Fault where
  /-- Raised by a host read of a KSRC word with a byte not written since reset (I1). Safe. -/
  | ksrcReadUnwritten
  /-- Raised by a host read of a KTAB word with a byte not written since reset (I1). Safe. -/
  | ktabReadUnwritten
  /-- Raised by `KT_BUILD` when it passes its size check while any `KSRC` byte is unwritten (I1). Safe. -/
  | ktBuildUnwritten
  /-- Raised by `CIPHER_FWD` and `CIPHER_REV` while any `KTAB` byte is unwritten (I1). Safe. -/
  | cipherUnwritten
  deriving DecidableEq, Repr

/-- Why the model declines to give a meaning. -/
inductive Refusal where
  /-- Raised by an arm of `exec` whose instruction has no meaning yet; no arm is left so. Safe. -/
  | notModelled (mnemonic : String)
  deriving DecidableEq, Repr

/-- The state after reset, before any transaction (R41): every byte of both memories is unspecified, so none is
listed; no event is pending and no response has been given (log entries 1 and 2). -/
def State.reset : State where
  crc := 0xFFFF
  ksrc := []
  ksrcLen := 0x0000
  ktab := []
  data0 := 0x00000000
  data1 := 0x00000000
  lastErr := 0
  errSticky := false
  pending := []
  responses := []

end Sys2Proof.Machine
end

