-- ==== Sys2Proof/Machine/Flags.lean ====
section
/-! DEFINITION. The STATUS register: its error codes, how it reads, what a write to it does, and how a command's
completion sets it (10_state.md R29, R35; 60_exceptions.md R171, R172). -/

namespace Sys2Proof.Machine

/-- The 4-bit code of an error (R171). -/
def ErrorCode.bits : ErrorCode → BitVec 4
  | .none => 0
  | .invalidInputSize => 1
  | .illegalCommand => 2

/-- A command fails when its code is not 0 (R172: "if code != 0"). -/
def ErrorCode.failed (c : ErrorCode) : Bool := c.bits != 0

/-- `Complete(code)`: `LAST_ERR` takes the code, a non-zero code sets `ERR_STICKY` (R172). -/
def State.complete (code : ErrorCode) (s : State) : State :=
  { s with lastErr := code.bits, errSticky := s.errSticky || code.failed }

/-- What STATUS reads: `zext_32(ERR_STICKY << 8 | LAST_ERR)` (20_memory.md R57). -/
def statusWord (errSticky : Bool) (lastErr : BitVec 4) : Word :=
  ((BitVec.ofBool errSticky).setWidth 32 <<< 8) ||| lastErr.setWidth 32

/-- A host write to STATUS: data bit 8 = 1 clears `ERR_STICKY`, every other bit is ignored (R35, R58). -/
def State.writeStatus (data : Word) (s : State) : State :=
  { s with errSticky := s.errSticky && !data.getLsbD 8 }

end Sys2Proof.Machine
end

