-- ==== Sys2Proof/Machine/Ops.lean ====
section
/-! DEFINITION. The named operations over the byte memories and over the state: reading and writing bytes and
little-endian words, the canonical form, raising an error, answering a transaction, and the reset event. -/

namespace Sys2Proof.Machine

/-! ### Byte order (00_scope.md R11; 20_memory.md R55) -/

/-- Four bytes as one little-endian word: `b0 | b1 << 8 | b2 << 16 | b3 << 24` (R11). -/
def leWord (b0 b1 b2 b3 : Byte) : Word :=
  b0.setWidth 32 ||| (b1.setWidth 32 <<< 8) ||| (b2.setWidth 32 <<< 16) ||| (b3.setWidth 32 <<< 24)

/-- Byte `k` of a word: `v[8k+7:8k]` (R11). -/
def byteOf (v : Word) (k : Nat) : Byte := v.extractLsb' (8 * k) 8

/-! ### A byte memory -/

/-- The canonical form of a byte memory of `size` bytes: addresses strictly rising, each inside the memory. An unlisted
byte has no value, so no entry can equal what an unlisted one reads as. -/
abbrev Memory.wf (size : Nat) (m : Memory) : Prop :=
  m.Pairwise (fun p q => p.1 < q.1) ∧ ∀ c ∈ m, c.1 < size

/-- The byte at an index; none where nothing has been written since reset (I1). -/
def Memory.read : Memory → Nat → Option Byte
  | [], _ => none
  | (k, b) :: rest, a => if k = a then some b else Memory.read rest a

/-- One byte written, the addresses kept rising. -/
def Memory.write : Memory → Nat → Byte → Memory
  | [], a, b => [(a, b)]
  | (k, c) :: rest, a, b =>
    if a < k then (a, b) :: (k, c) :: rest
    else if a = k then (a, b) :: rest
    else (k, c) :: Memory.write rest a b

/-- `MemRead(space, a, 4)` (R11); none if any of the four bytes has not been written since reset (I1). -/
def Memory.readWord (m : Memory) (a : Nat) : Option Word :=
  match m.read a, m.read (a + 1), m.read (a + 2), m.read (a + 3) with
  | some b0, some b1, some b2, some b3 => some (leWord b0 b1 b2 b3)
  | _, _, _, _ => none

/-- `MemWrite(space, a, 4, v)`: byte `a + k` receives `v[8k+7:8k]` (R11). -/
def Memory.writeWord (m : Memory) (a : Nat) (v : Word) : Memory :=
  (((m.write a (byteOf v 0)).write (a + 1) (byteOf v 1)).write (a + 2) (byteOf v 2)).write (a + 3) (byteOf v 3)

/-- The memory whose bytes from index 0 on are the given ones, every one of them written. -/
def Memory.ofBytes (bs : List Byte) : Memory := (List.range bs.length).zip bs

/-- All `size` bytes of a memory in order, if every one has been written since reset; else none (I1). It reads a
memory in canonical form in one pass: as many bytes are listed as there are, at exactly the addresses 0 .. size-1 (log
entry 4). -/
def Memory.image (size : Nat) (m : Memory) : Option (List Byte) :=
  if m.length == size && m.map Prod.fst == List.range size then some (m.map Prod.snd) else none

/-! ### Errors, answers, reset -/

/-- `raise <Error>`: the command ends with the code and no other state change (00_scope.md R12; 60_exceptions.md R170,
R172). The block has no trap: this is the one thing an error does. There is nothing to return from (R178). -/
def State.raise (code : ErrorCode) (s : State) : State := s.complete code

/-- The response to the transaction just performed, recorded for the host (00_scope.md R13). -/
def State.respond (r : Response) (s : State) : State := { s with responses := r :: s.responses }

/-- A command's outcome as the outcome of the CMD write that issued it: a write that completes answers `OK` (20_memory.md
R60: "A CMD write always answers `OK`, whatever the command's outcome"). -/
def answerOk : Host.Outcome State Fault Refusal → Host.Outcome State Fault Refusal
  | .next s => .next (s.respond .ok)
  | .fault r => .fault r
  | .refused r => .refused r

/-- The reset event: every state element takes its reset value, and the memories are unspecified again, so every
"written since reset" mark goes (70_reset_and_hazards.md R200; I1). What the outside world has in store, and what it has
been answered, are not the block's and stay (log entry 5). -/
def State.resetEvent (s : State) : State :=
  { State.reset with pending := s.pending, responses := s.responses }

end Sys2Proof.Machine
end

