-- ==== Sys2Proof/Machine/Operands.lean ====
section
/-! DEFINITION. The operand forms. A command's explicit operand is decoded with it (`ARG`, Decode.lean); every other
operand is implicit (30_encoding.md R82): the key-source bytes, the key table's word view and the cipher's block. The
host bus selects its operand by offset (20_memory.md R54). -/

namespace Sys2Proof.Machine

/-- What an accepted transaction selects (R54): one of the six registers, or a word of a memory window, given by the
byte index of its first byte in that memory. -/
inductive Target where
  | cmd
  | status
  | crcValue
  | ksrcLen
  | data0
  | data1
  | ksrc (index : Nat)
  | ktab (index : Nat)
  deriving DecidableEq, Repr

/-- The register map (10_state.md R30) for an aligned offset; none for a reserved one (R38, R54). -/
def offsetTarget (off : Nat) : Option Target :=
  if off = 0x0000 then some .cmd
  else if off = 0x0004 then some .status
  else if off = 0x0008 then some .crcValue
  else if off = 0x000C then some .ksrcLen
  else if off = 0x0010 then some .data0
  else if off = 0x0014 then some .data1
  else if 0x1000 ≤ off ∧ off ≤ 0x1FFC then some (.ksrc (off - 0x1000))
  else if 0x2000 ≤ off ∧ off ≤ 0x3044 then some (.ktab (off - 0x2000))
  else none

/-- The bus rules in their order: size (R52), alignment (R53), then offset decode (R54, R176); none is `BUS_ERROR`. -/
def busTarget (off : Offset) (size : Nat) : Option Target :=
  if size ≠ 4 then none
  else if off.toNat % 4 ≠ 0 then none
  else offsetTarget off.toNat

/-- The little-endian words of a byte sequence (R11's word view), four bytes a word. -/
def wordsOf : List Byte → List Word
  | b0 :: b1 :: b2 :: b3 :: rest => leWord b0 b1 b2 b3 :: wordsOf rest
  | _ => []

/-- Byte `i` of a byte sequence. No command forms an index past the end (41_keytable.md R126), so the 0 that stands
there is never read (log entry 8). -/
def byteAt (bs : List Byte) (i : Nat) : Byte := bs.getD i 0

/-- Word `w` of a word sequence, the cipher's `T[w]`. No command forms an index past the end (42_cipher.md R147), so the
0 that stands there is never read (log entry 8). -/
def wordAt (ws : List Word) (w : Nat) : Word := ws.getD w 0

/-- `KT_BUILD`'s operand: the 4096 original bytes of `KSRC`, if all are written (R120, I1). -/
def State.keySource (s : State) : Option (List Byte) := s.ksrc.image Config.ksrcSize

/-- The cipher commands' table operand: `KTAB` as 1042 little-endian words, as it stands when the command starts, if all
its bytes are written (42_cipher.md R140, I1). -/
def State.keyTableWords (s : State) : Option (List Word) := (s.ktab.image Config.ktabSize).map wordsOf

end Sys2Proof.Machine
end

