-- ==== Sys2Proof/Machine/Cipher.lean ====
section
/-! DEFINITION. The 64-bit Feistel block cipher: its round function (42_cipher.md R141), its rounds, and the commands
`CIPHER_FWD` (R142) and `CIPHER_REV` (R143). `T` is the key table's word view (R140). -/

namespace Sys2Proof.Machine

/-- `F(z) = ((S0[z[31:24]] +32 S1[z[23:16]]) XOR S2[z[15:8]]) +32 S3[z[7:0]]`, the four lookup tables at word bases
0x012, 0x112, 0x212 and 0x312 (R141). -/
def roundF (T : Nat → Word) (z : Word) : Word :=
  ((T (0x012 + (byteOf z 3).toNat) + T (0x112 + (byteOf z 2).toNat)) ^^^ T (0x212 + (byteOf z 1).toNat))
    + T (0x312 + (byteOf z 0).toNat)

/-- One round with round key `T[i]` on `(x, y)`: `z <- T[i] XOR x`, `x <- y XOR F(z)`, `y <- z` (R142, R143). -/
def cipherRound (T : Nat → Word) (xy : Word × Word) (i : Nat) : Word × Word :=
  (xy.2 ^^^ roundF T (T i ^^^ xy.1), T i ^^^ xy.1)

/-- The rounds with the listed round keys, in order. -/
def cipherRounds (T : Nat → Word) (keys : List Nat) (xy : Word × Word) : Word × Word :=
  keys.foldl (cipherRound T) xy

/-- Forward: `i = 0, 1, ..., 15` (R142). -/
def forwardKeys : List Nat := [0, 1, 2, 3, 4, 5, 6, 7, 8, 9, 10, 11, 12, 13, 14, 15]

/-- Reverse: `i = 17, 16, ..., 2` (R143). -/
def reverseKeys : List Nat := [17, 16, 15, 14, 13, 12, 11, 10, 9, 8, 7, 6, 5, 4, 3, 2]

/-- The forward transform of `(DATA0, DATA1)`: `x` starts as `DATA1`, `y` as `DATA0` (R142). -/
def encipher (T : Nat → Word) (d : Word × Word) : Word × Word :=
  let xy := cipherRounds T forwardKeys (d.2, d.1)
  (xy.1 ^^^ T 0x10, xy.2 ^^^ T 0x11)

/-- The reverse transform of `(DATA0, DATA1)` (R143; the whitening words as 90_conflicts.md C6 settles them). -/
def decipher (T : Nat → Word) (d : Word × Word) : Word × Word :=
  let xy := cipherRounds T reverseKeys (d.2, d.1)
  (xy.1 ^^^ T 0x1, xy.2 ^^^ T 0x0)

/-- What both cipher commands do with their transform: both data words are read before either is written, no table
content is refused (R148), and a table with an unwritten byte stops the model (I1). -/
def applyCipher (f : (Nat → Word) → Word × Word → Word × Word) (s : State) : Host.Outcome State Fault Refusal :=
  match s.keyTableWords with
  | none => .fault .cipherUnwritten
  | some ws =>
    let d := f (wordAt ws) (s.data0, s.data1)
    .next ({ s with data0 := d.1, data1 := d.2 }.complete .none)

/-- `CIPHER_FWD` (R142). -/
def execCipherFwd (s : State) : Host.Outcome State Fault Refusal := applyCipher encipher s

/-- `CIPHER_REV` (R143). -/
def execCipherRev (s : State) : Host.Outcome State Fault Refusal := applyCipher decipher s

end Sys2Proof.Machine
end

