-- ==== Sys2Proof/Machine/Crc.lean ====
section
/-! DEFINITION. The CRC16-Modbus generator: the checksum function (40_crc16.md R100–R103) and the commands `CRC_INIT`
and `CRC_UPDATE` (R104, R105). -/

namespace Sys2Proof.Machine

/-- The register's initial value (R100). -/
def crcInitial : Half := 0xFFFF

/-- The reflected polynomial (R100). -/
def crcPoly : Half := 0xA001

/-- One bit of `crc_step`: shift right, and XOR the polynomial in if the bit shifted out was 1 (R101; PRESUMED by the
spec itself, G1; log entry 9). -/
def crcBit (c : Half) : Half := if c.getLsbD 0 then (c >>> 1) ^^^ crcPoly else c >>> 1

/-- `n` bits in turn. -/
def crcBits : Nat → Half → Half
  | 0, c => c
  | n + 1, c => crcBits n (crcBit c)

/-- `crc_step(c, b)`: the byte enters at the low end, then eight bits (R101). -/
def crcStep (c : Half) (b : Byte) : Half := crcBits 8 (c ^^^ b.setWidth 16)

/-- `crc16(b_1 .. b_n)`: the left fold of `crc_step` from the initial value, no final XOR (R102). -/
def crc16 (bs : List Byte) : Half := bs.foldl crcStep crcInitial

/-- The checksum as stored: a 16-bit little-endian field, low byte first (R103). -/
def crcField (c : Half) : List Byte := [c.extractLsb' 0 8, c.extractLsb' 8 8]

/-- `CRC_INIT` (R104). -/
def execCrcInit (s : State) : Host.Outcome State Fault Refusal :=
  .next ({ s with crc := crcInitial }.complete .none)

/-- `CRC_UPDATE b` (R105). -/
def execCrcUpdate (b : Byte) (s : State) : Host.Outcome State Fault Refusal :=
  .next ({ s with crc := crcStep s.crc b }.complete .none)

end Sys2Proof.Machine
end

