-- ==== Sys2Proof/Machine/KeyTable.lean ====
section
/-! DEFINITION. The key-table permutation engine: the derivation (41_keytable.md R122, R123) and the command `KT_BUILD`
(R120, R121). -/

namespace Sys2Proof.Machine

/-- `idx = 0x100 * (x mod 16) + KSRC[x]` (R122). -/
def headerIndex (ks : List Byte) (x : Nat) : Nat := 0x100 * (x % 16) + (byteAt ks x).toNat

/-- The header segment: 72 bytes, byte `x` being `KSRC[idx]`, every read from the original key source (R122). -/
def headerSegment (ks : List Byte) : List Byte :=
  (List.range Config.headerSize).map (fun x => byteAt ks (headerIndex ks x))

/-- The key table: "header || key_source", the body a verbatim copy (R123). -/
def keyTable (ks : List Byte) : List Byte := headerSegment ks ++ ks

/-- `KT_BUILD` (R120): the size check comes before any read or write (R121, R176), so a refused build consumes nothing;
one that passes it consumes all of `KSRC` (I1) and writes all of `KTAB` (R125). -/
def execKtBuild (s : State) : Host.Outcome State Fault Refusal :=
  if s.ksrcLen ≠ 0x1000 then .next (s.raise .invalidInputSize)
  else
    match s.keySource with
    | none => .fault .ktBuildUnwritten
    | some ks => .next ({ s with ktab := Memory.ofBytes (keyTable ks) }.complete .none)

end Sys2Proof.Machine
end

