-- ==== Sys2Proof/Machine/Dispatch.lean ====
section
/-! DEFINITION. The one dispatch from a command to its meaning (30_encoding.md R85), its completion (60_exceptions.md
R172) included. -/

namespace Sys2Proof.Machine

def exec (i : Instr) (s : State) : Host.Outcome State Fault Refusal :=
  match i with
  | .crcInit => Sys2Proof.Machine.execCrcInit s
  | .crcUpdate b => Sys2Proof.Machine.execCrcUpdate b s
  | .ktBuild => Sys2Proof.Machine.execKtBuild s
  | .cipherFwd => Sys2Proof.Machine.execCipherFwd s
  | .cipherRev => Sys2Proof.Machine.execCipherRev s

end Sys2Proof.Machine
end

