-- ==== Sys2Proof/Machine/Transactions.lean ====
section
/-! DEFINITION. The host's transactions (20_memory.md R59, R60), the execution of a command word (30_encoding.md R85),
and what the block does with the next event. -/

namespace Sys2Proof.Machine

/-- `Execute(w)` (R85): a legal word runs its command; an illegal one raises `IllegalCommand`, whichever of R86's cases
it is (R87, R174). -/
def execute (w : Word) (s : State) : Host.Outcome State Fault Refusal :=
  match decode w with
  | .ok i => exec i s
  | .error _ => .next (s.raise .illegalCommand)

/-- The word a memory window read returns, or the model's stop where it would consume an unwritten byte (I1). -/
def readWindow (m : Memory) (index : Nat) (stop : Fault) : Except Fault Word :=
  match m.readWord index with
  | some w => .ok w
  | none => .error stop

/-- What an accepted read of a target returns (R59). A register always reads; a window may hold unwritten bytes. -/
def readTarget (s : State) : Target → Except Fault Word
  | .cmd => .ok 0x00000000
  | .status => .ok (statusWord s.errSticky s.lastErr)
  | .crcValue => .ok (s.crc.setWidth 32)
  | .ksrcLen => .ok (s.ksrcLen.setWidth 32)
  | .data0 => .ok s.data0
  | .data1 => .ok s.data1
  | .ksrc index => readWindow s.ksrc index .ksrcReadUnwritten
  | .ktab index => readWindow s.ktab index .ktabReadUnwritten

/-- `HostRead(off, size)` (R59). A read changes nothing (R57); its response is recorded. -/
def hostRead (off : Offset) (size : Nat) (s : State) : Host.Outcome State Fault Refusal :=
  match busTarget off size with
  | none => .next (s.respond .busError)
  | some t =>
    match readTarget s t with
    | .error stop => .fault stop
    | .ok w => .next (s.respond (.data w))

/-- An accepted write of a target (R60, R58), before its answer. -/
def writeTarget (data : Word) (s : State) : Target → Host.Outcome State Fault Refusal
  | .cmd => execute data s
  | .status => .next (s.writeStatus data)
  | .crcValue => .next s
  | .ksrcLen => .next { s with ksrcLen := data.setWidth 16 }
  | .data0 => .next { s with data0 := data }
  | .data1 => .next { s with data1 := data }
  | .ksrc index => .next { s with ksrc := s.ksrc.writeWord index data }
  | .ktab index => .next { s with ktab := s.ktab.writeWord index data }

/-- `HostWrite(off, size, data)` (R60). -/
def hostWrite (off : Offset) (size : Nat) (data : Word) (s : State) : Host.Outcome State Fault Refusal :=
  match busTarget off size with
  | none => .next (s.respond .busError)
  | some t => answerOk (writeTarget data s t)

/-- One transaction, one atomic step (R13, R62). -/
def transact (t : Transaction) (s : State) : Host.Outcome State Fault Refusal :=
  match t.access with
  | .read size => hostRead t.off size s
  | .write size data => hostWrite t.off size data s

/-- One event, in the state from which it has been taken. -/
def performEvent (e : Event) (s : State) : Host.Outcome State Fault Refusal :=
  match e with
  | .txn t => transact t s
  | .reset => .next s.resetEvent

/-- The block meets its next event; with none in store it is idle and holds its state (60_exceptions.md R186,
70_reset_and_hazards.md R202; log entry 1). -/
def nextEvent (s : State) : Host.Outcome State Fault Refusal :=
  match s.pending with
  | [] => .next s
  | e :: rest => performEvent e { s with pending := rest }

end Sys2Proof.Machine
end

