-- ==== Sys2Proof/Machine/Step.lean ====
section
/-! DEFINITION. The step of the machine, and how the host places a command word where the next step takes it. -/

namespace Sys2Proof.Machine

/-- One step: the next event, taken whole (00_scope.md R13). -/
def step (s : State) : Host.Outcome State Fault Refusal := nextEvent s

/-- The state in which the very next step runs the command word `w` of `nbits` bits: the block fetches nothing
(10_state.md R22), so the word comes as the host's write to CMD, put before whatever else is in store (log entry 10). -/
def State.withFetchWord (s : State) (nbits w : Nat) : State :=
  { s with pending := .command (BitVec.ofNat 32 (w % 2 ^ nbits)) :: s.pending }

end Sys2Proof.Machine
end

