-- ==== Sys2Proof/Machine/HostProgram.lean ====
section
/-! DEFINITION. The textual notation for host programs (30_encoding.md R88): its lines, the command mnemonics (R89) and
the pseudo-instructions (R90), each as the bus transactions it stands for, with the checks of a well-formed line. -/

namespace Sys2Proof.Machine

/-- `<target>` of R88: a name of the register map, a byte offset into a window, or a raw offset `@<off>`. -/
inductive HostTarget where
  | named (t : Target)
  | raw (off : Nat)
  deriving DecidableEq, Repr

/-- `WR <target>, <imm32>`, and `RD <target> [=> <imm32>]`, where "`=> v`" states the value the rules give (R88). -/
inductive HostLine where
  | wr (target : HostTarget) (imm : Word)
  | rd (target : HostTarget) (expected : Option Word)
  deriving DecidableEq, Repr

/-- `off(target)` (R88, and the register map of 10_state.md R30). -/
def targetOffset : Target → Nat
  | .cmd => 0x0000
  | .status => 0x0004
  | .crcValue => 0x0008
  | .ksrcLen => 0x000C
  | .data0 => 0x0010
  | .data1 => 0x0014
  | .ksrc index => 0x1000 + index
  | .ktab index => 0x2000 + index

/-- `off(target)` of a line's target (R88). -/
def HostTarget.offset : HostTarget → Nat
  | .named t => targetOffset t
  | .raw off => off

/-- R88: "`byteoff` a multiple of 4 below 0x1000", "a multiple of 4 below 0x1048". -/
def Target.wellFormed : Target → Bool
  | .cmd => true
  | .status => true
  | .crcValue => true
  | .ksrcLen => true
  | .data0 => true
  | .data1 => true
  | .ksrc index => index % 4 == 0 && index < Config.ksrcSize
  | .ktab index => index % 4 == 0 && index < Config.ktabSize

/-- A raw offset lies in the window (20_memory.md R50); it may be misaligned or reserved, "to show BUS_ERROR cases". -/
def HostTarget.wellFormed : HostTarget → Bool
  | .named t => t.wellFormed
  | .raw off => off < Config.windowSize

/-- A line is well formed when its target is (R88). -/
def HostLine.wellFormed : HostLine → Bool
  | .wr t _ => t.wellFormed
  | .rd t _ => t.wellFormed

/-- "Each `WR`/`RD` line is exactly one bus transaction" (R88). -/
def HostLine.event : HostLine → Event
  | .wr t imm => .wr (BitVec.ofNat 14 t.offset) imm
  | .rd t _ => .rd (BitVec.ofNat 14 t.offset)

/-- Whether a response is what a line states: a write answers `OK`, a read the stated value where one is stated. -/
def HostLine.agrees : HostLine → Response → Bool
  | .wr _ _, r => r == .ok
  | .rd _ (some v), r => r == .data v
  | .rd _ none, r => r != .busError

/-- A command mnemonic is one `WR CMD` line (R89). -/
def commandLine (i : Instr) : HostLine := .wr (.named .cmd) (encode i)

/-- The pseudo-instructions, "none is a command of its own" (R90). -/
inductive Pseudo where
  /-- `CRC.BYTES b1, ..., bn` -/
  | crcBytes (bs : List Byte)
  /-- `CRC16 b1, ..., bn` -/
  | crc16 (bs : List Byte)
  /-- `KSRC.LOAD s`, s of 4096 bytes -/
  | ksrcLoad (s : List Byte)
  /-- `KTAB.LOAD t`, t of 1042 words -/
  | ktabLoad (t : List Word)
  /-- `BLOCK.SET d0, d1` -/
  | blockSet (d0 d1 : Word)
  /-- `BLOCK.GET` -/
  | blockGet
  /-- `STATUS.CLEAR` -/
  | statusClear
  deriving DecidableEq, Repr

/-- R90: `s` has 4096 bytes, `t` has 1042 words. -/
def Pseudo.wellFormed : Pseudo → Bool
  | .crcBytes _ => true
  | .crc16 _ => true
  | .ksrcLoad s => s.length == Config.ksrcSize
  | .ktabLoad t => t.length == Config.ktabWords
  | .blockSet _ _ => true
  | .blockGet => true
  | .statusClear => true

/-- Word `k` of a byte sequence as `KSRC.LOAD` writes it: `s[4k] | s[4k+1] << 8 | s[4k+2] << 16 | s[4k+3] << 24` (R90). -/
def loadWord (s : List Byte) (k : Nat) : Word :=
  leWord (byteAt s (4 * k)) (byteAt s (4 * k + 1)) (byteAt s (4 * k + 2)) (byteAt s (4 * k + 3))

/-- The expansion of a pseudo-instruction, line by line (R90). -/
def Pseudo.expand : Pseudo → List HostLine
  | .crcBytes bs => bs.map (fun b => commandLine (.crcUpdate b))
  | .crc16 bs =>
    commandLine .crcInit :: (bs.map (fun b => commandLine (.crcUpdate b)) ++ [.rd (.named .crcValue) none])
  | .ksrcLoad s =>
    (List.range 1024).map (fun k => .wr (.named (.ksrc (4 * k))) (loadWord s k)) ++ [.wr (.named .ksrcLen) 0x1000]
  | .ktabLoad t => (List.range Config.ktabWords).map (fun w => .wr (.named (.ktab (4 * w))) (wordAt t w))
  | .blockSet d0 d1 => [.wr (.named .data0) d0, .wr (.named .data1) d1]
  | .blockGet => [.rd (.named .data0) none, .rd (.named .data1) none]
  | .statusClear => [.wr (.named .status) 0x00000100]

/-- The events a pseudo-instruction puts before the block. -/
def Pseudo.events (p : Pseudo) : List Event := p.expand.map HostLine.event

end Sys2Proof.Machine
end

