-- ==== Sys2Proof/Machine/Window.lean ====
section
/-! DEFINITION. Where the window sits on the platform (00_scope.md R8; 20_memory.md R63): a platform address reaches the
block only inside the window at `BASE`, as its offset from `BASE`. The base is an argument; `Config.base` is the
platform's. -/

namespace Sys2Proof.Machine

/-- The offset at which a platform address reaches the block; none outside the window: "Offsets at or above 0x4000 are
outside the block's window and never reach it" (10_state.md R38). -/
def windowOffset (base addr : Nat) : Option Offset :=
  if base ≤ addr ∧ addr < base + Config.windowSize then some (BitVec.ofNat 14 (addr - base)) else none

/-- A bus master's access at a platform address, arriving after everything already in store (20_memory.md R65, R70): it
becomes an event of the block only if it falls in the window. The block does not tell masters apart. -/
def State.submit (base addr : Nat) (access : Access) (s : State) : State :=
  match windowOffset base addr with
  | none => s
  | some off => { s with pending := s.pending ++ [.txn ⟨off, access⟩] }

end Sys2Proof.Machine
end

