-- ==== Sys2Proof/WellFormed.lean ====
section
/-! DEFINITION. Well-formedness. A term of `Instr` has no ill-formed operand: `b` is a byte by its type, and a command
without operand has nowhere to put one (30_encoding.md R82). What can be ill-formed is the WORD a host writes to CMD,
so the checks of R83 and R84 stand here on words, one definition a check, independent of the decoder's order. -/

namespace Sys2Proof

/-- Every term of `Instr` is well formed (R82: "an unsigned 8-bit byte taken as is"). -/
def Instr.wellFormed : Instr → Bool
  | .crcInit => true
  | .crcUpdate _ => true
  | .ktBuild => true
  | .cipherFwd => true
  | .cipherRev => true

/-- R83: "`RSVD` must be 0 in every legal command". -/
def reservedIsZero (w : Word) : Bool := cmdRsvd w == 0

/-- R84: `OP` is one the opcode map assigns. -/
def opIsAssigned (w : Word) : Bool := [0x01, 0x02, 0x10, 0x20, 0x21].contains (cmdOp w)

/-- R83: "`ARG` must be 0 in every legal command except `CRC_UPDATE`". -/
def argIsZeroUnlessUpdate (w : Word) : Bool := cmdOp w == 0x02 || cmdArg w == 0

/-- A legal command word passes the three checks (R83, R84, R86). -/
def legalWord (w : Word) : Bool := reservedIsZero w && opIsAssigned w && argIsZeroUnlessUpdate w

end Sys2Proof
end

