-- ==== Sys2Proof/Safety.lean ====
section
/-! DEFINITION. The words claims are stated in: the block's own part of a state, the invariant, what it means for a
memory to be wholly written, and a safe run. -/

namespace Sys2Proof.Machine

/-- The block's own state (10_state.md R20), without the bus's two fields of the model. -/
def State.block (s : State) : State := { s with pending := [], responses := [] }

/-- The invariant: both memories are in canonical form inside their size (10_state.md R24, R26), and `LAST_ERR` holds
no reserved code (60_exceptions.md R171; 93_implementation_defined.md I2). -/
structure State.Inv (s : State) : Prop where
  ksrc_wf : s.ksrc.wf Config.ksrcSize
  ktab_wf : s.ktab.wf Config.ktabSize
  lastErr_le : s.lastErr.toNat ≤ 2

/-- Every byte of `KSRC` has been written since reset: what `KT_BUILD` needs "to give a defined result" (R203). -/
def State.KeySourceWritten (s : State) : Prop := ∀ i < Config.ksrcSize, (s.ksrc.read i).isSome

/-- Every byte of `KTAB` has been written since reset: what a cipher command needs (R203). -/
def State.KeyTableWritten (s : State) : Prop := ∀ i < Config.ktabSize, (s.ktab.read i).isSome

/-- The state a step or a meaning goes on to, if it does. -/
def nextOf : Host.Outcome State Fault Refusal → Option State
  | .next s => some s
  | .fault _ => none
  | .refused _ => none

/-- A run of `k` steps is safe when none of them stops. -/
def SafeRun (k : Nat) (s : State) : Prop := ∃ t, core.run k s = .next t

end Sys2Proof.Machine
end

