-- ==== Sys2Proof/Certificates/Slice0/Obligations.lean ====
section
/-! DEFINITION. The statements about the model, each `def Obligations.<Name> : Prop`. A docstring names the rule of the
spec it formalises. Values and offsets are written out from the spec, not taken from the model's own definitions,
wherever the two could differ. `pending` and `responses` are not the block's: they are how the model holds the host's
transactions and the answers to them (R13; log entries 1 and 2). -/

open Sys2Proof Sys2Proof.Machine

/-! ### Encoding -/

/-- R80, R84: decoding gives a command exactly for that command's one word, with its byte at every value: every
well-formed command comes back from its word, and no other word decodes to it. -/
def Obligations.DecodeInvertsEncode : Prop :=
  ∀ (w : Word) (i : Instr), i.wellFormed = true → (decode w = .ok i ↔ encode i = w)

/-- R84: "A word `w` is the command of a row exactly when `w AND mask = match`", row by row, the byte of `CRC_UPDATE`
being bits 15:8 (R82); and no word is the command of two rows. -/
def Obligations.OpcodeMapRowsDecideTheCommand : Prop :=
  ∀ w : Word,
    (w &&& 0xFFFFFFFF = 0x00000001 ↔ decode w = .ok .crcInit) ∧
    (w &&& 0xFFFF00FF = 0x00000002 ↔ ∃ b, decode w = .ok (.crcUpdate b)) ∧
    (w &&& 0xFFFF00FF = 0x00000002 → decode w = .ok (.crcUpdate (w.extractLsb' 8 8))) ∧
    (w &&& 0xFFFFFFFF = 0x00000010 ↔ decode w = .ok .ktBuild) ∧
    (w &&& 0xFFFFFFFF = 0x00000020 ↔ decode w = .ok .cipherFwd) ∧
    (w &&& 0xFFFFFFFF = 0x00000021 ↔ decode w = .ok .cipherRev) ∧
    (∀ r ∈ opcodeMap, ∀ r' ∈ opcodeMap, r.matchesWord w = true → r'.matchesWord w = true → r = r')

/-- R86: the illegal words are exactly (a) `RSVD != 0`, (b) an unassigned `OP`, (c) `ARG != 0` with an `OP` that takes
none; executing one changes nothing but STATUS; the all-zero word is one. -/
def Obligations.IllegalWordsAreExactlyTheListedOnes : Prop :=
  (∀ w : Word,
    (∃ e, decode w = .error e) ↔
      (w.extractLsb' 16 16 ≠ 0 ∨
        w.extractLsb' 0 8 ∉ ([0x01, 0x02, 0x10, 0x20, 0x21] : List Byte) ∨
        (w.extractLsb' 0 8 ∈ ([0x01, 0x10, 0x20, 0x21] : List Byte) ∧ w.extractLsb' 8 8 ≠ 0))) ∧
  (∀ (w : Word) (e : IllegalWord) (s : State), decode w = .error e →
    execute w s = .next { s with lastErr := 2, errSticky := true }) ∧
  (∃ e, decode 0x00000000 = .error e)

/-- R84, R86: a few words written out from the opcode map and from the encoding vectors of 95_test_vectors.md §5. -/
def Obligations.WrittenWordsDecodeAsTheTableSays : Prop :=
  decode 0x00000001 = .ok .crcInit ∧ decode 0x00000002 = .ok (.crcUpdate 0x00) ∧
  decode 0x0000FF02 = .ok (.crcUpdate 0xFF) ∧ decode 0x00000010 = .ok .ktBuild ∧
  decode 0x00000020 = .ok .cipherFwd ∧ decode 0x00000021 = .ok .cipherRev ∧
  decode 0x00001010 = .error .argNotZero ∧ decode 0x80000020 = .error .reservedNotZero ∧
  decode 0x00000022 = .error .unassignedOp

/-! ### The step -/

/-- R60, R85: when the next event is the write of a command's word to CMD, the step is that command's execution on the
state from which the event has been taken, answered `OK`. -/
def Obligations.StepRunsTheDecodedCommand : Prop :=
  ∀ (s : State) (w : Word) (i : Instr) (rest : List Event),
    s.pending = .txn ⟨0x0000, .write 4 w⟩ :: rest → decode w = .ok i →
    (∀ t, exec i { s with pending := rest } = .next t → step s = .next { t with responses := .ok :: t.responses }) ∧
    (∀ r, exec i { s with pending := rest } = .fault r → step s = .fault r) ∧
    (∀ r, exec i { s with pending := rest } = .refused r → step s = .refused r)

/-- R174: writing an illegal word to CMD runs no command: every element except STATUS is unchanged, `LAST_ERR` = 2,
`ERR_STICKY` = 1, and the response is still `OK`. -/
def Obligations.IllegalCommandChangesOnlyStatus : Prop :=
  ∀ (s : State) (w : Word) (e : IllegalWord) (rest : List Event),
    s.pending = .txn ⟨0x0000, .write 4 w⟩ :: rest → decode w = .error e →
    step s = .next { s with lastErr := 2, errSticky := true, pending := rest, responses := .ok :: s.responses }

/-- R52, R53, R56, R175: a transaction of a size other than 4, at an offset not a multiple of 4, or at a reserved offset
(R38) is answered `BUS_ERROR` and changes no state element; every other transaction that completes is not. -/
def Obligations.BusErrorExactlyWhenRefused : Prop :=
  ∀ (s : State) (off : Offset) (a : Access) (rest : List Event),
    s.pending = .txn ⟨off, a⟩ :: rest →
    ((a.size ≠ 4 ∨ off.toNat % 4 ≠ 0 ∨ (0x0018 ≤ off.toNat ∧ off.toNat ≤ 0x0FFF) ∨ 0x3048 ≤ off.toNat) →
      step s = .next { s with pending := rest, responses := .busError :: s.responses }) ∧
    (a.size = 4 → off.toNat % 4 = 0 → ¬ (0x0018 ≤ off.toNat ∧ off.toNat ≤ 0x0FFF) → off.toNat < 0x3048 →
      ∀ t, step s = .next t → t.responses.head? ≠ some .busError)

/-- R59 (`HostRead`, in full), with R35, R36, R37 and R55's byte order: the response to every read. A memory word is
read where its four bytes hold a value; where one does not, see `UnwrittenWindowReadStops`. -/
def Obligations.HostReadAnswersTheRegisterMap : Prop :=
  ∀ (s : State) (off : Offset) (size : Nat) (rest : List Event),
    s.pending = .txn ⟨off, .read size⟩ :: rest →
    (size ≠ 4 ∨ off.toNat % 4 ≠ 0 →
      step s = .next { s with pending := rest, responses := .busError :: s.responses }) ∧
    (size = 4 →
      (off.toNat = 0x0000 → step s = .next { s with pending := rest, responses := .data 0 :: s.responses }) ∧
      (off.toNat = 0x0004 → step s = .next { s with
        pending := rest
        responses := .data (BitVec.ofNat 32 (256 * s.errSticky.toNat + s.lastErr.toNat)) :: s.responses }) ∧
      (off.toNat = 0x0008 → step s = .next { s with
        pending := rest, responses := .data (BitVec.ofNat 32 s.crc.toNat) :: s.responses }) ∧
      (off.toNat = 0x000C → step s = .next { s with
        pending := rest, responses := .data (BitVec.ofNat 32 s.ksrcLen.toNat) :: s.responses }) ∧
      (off.toNat = 0x0010 → step s = .next { s with pending := rest, responses := .data s.data0 :: s.responses }) ∧
      (off.toNat = 0x0014 → step s = .next { s with pending := rest, responses := .data s.data1 :: s.responses }) ∧
      (∀ k < 1024, ∀ b0 b1 b2 b3 : Byte, off.toNat = 0x1000 + 4 * k →
        s.ksrc.read (4 * k) = some b0 → s.ksrc.read (4 * k + 1) = some b1 →
        s.ksrc.read (4 * k + 2) = some b2 → s.ksrc.read (4 * k + 3) = some b3 →
        step s = .next { s with pending := rest, responses := .data (b3 ++ b2 ++ b1 ++ b0) :: s.responses }) ∧
      (∀ w < 1042, ∀ b0 b1 b2 b3 : Byte, off.toNat = 0x2000 + 4 * w →
        s.ktab.read (4 * w) = some b0 → s.ktab.read (4 * w + 1) = some b1 →
        s.ktab.read (4 * w + 2) = some b2 → s.ktab.read (4 * w + 3) = some b3 →
        step s = .next { s with pending := rest, responses := .data (b3 ++ b2 ++ b1 ++ b0) :: s.responses }) ∧
      ((0x0018 ≤ off.toNat ∧ off.toNat ≤ 0x0FFF) ∨ 0x3048 ≤ off.toNat →
        step s = .next { s with pending := rest, responses := .busError :: s.responses }))

/-- 93_implementation_defined.md I1 (decision D28): a host read of a word of a memory window with any byte not written
since reset stops the model, by name. -/
def Obligations.UnwrittenWindowReadStops : Prop :=
  ∀ (s : State) (off : Offset) (rest : List Event), s.pending = .txn ⟨off, .read 4⟩ :: rest →
    (∀ k < 1024, ∀ j < 4, off.toNat = 0x1000 + 4 * k → s.ksrc.read (4 * k + j) = none →
      step s = .fault .ksrcReadUnwritten) ∧
    (∀ w < 1042, ∀ j < 4, off.toNat = 0x2000 + 4 * w → s.ktab.read (4 * w + j) = none →
      step s = .fault .ktabReadUnwritten)

/-- R60 (`HostWrite`, in full), with R33, R35, R36, R37 and R55's byte order: what every write does and its response.
The write to CMD executes its word (`StepRunsTheDecodedCommand`, `IllegalCommandChangesOnlyStatus`). -/
def Obligations.HostWriteFollowsTheRegisterMap : Prop :=
  ∀ (s : State) (off : Offset) (size : Nat) (data : Word) (rest : List Event),
    s.pending = .txn ⟨off, .write size data⟩ :: rest →
    (size ≠ 4 ∨ off.toNat % 4 ≠ 0 →
      step s = .next { s with pending := rest, responses := .busError :: s.responses }) ∧
    (size = 4 →
      (off.toNat = 0x0000 → ∀ t, execute data { s with pending := rest } = .next t →
        step s = .next { t with responses := .ok :: t.responses }) ∧
      (off.toNat = 0x0004 → step s = .next { s with
        errSticky := if data.getLsbD 8 then false else s.errSticky
        pending := rest
        responses := .ok :: s.responses }) ∧
      (off.toNat = 0x0008 → step s = .next { s with pending := rest, responses := .ok :: s.responses }) ∧
      (off.toNat = 0x000C → step s = .next { s with
        ksrcLen := data.extractLsb' 0 16, pending := rest, responses := .ok :: s.responses }) ∧
      (off.toNat = 0x0010 → step s = .next { s with
        data0 := data, pending := rest, responses := .ok :: s.responses }) ∧
      (off.toNat = 0x0014 → step s = .next { s with
        data1 := data, pending := rest, responses := .ok :: s.responses }) ∧
      (∀ k < 1024, off.toNat = 0x1000 + 4 * k →
        ∃ m, step s = .next { s with ksrc := m, pending := rest, responses := .ok :: s.responses } ∧
          m.read (4 * k) = some (data.extractLsb' 0 8) ∧ m.read (4 * k + 1) = some (data.extractLsb' 8 8) ∧
          m.read (4 * k + 2) = some (data.extractLsb' 16 8) ∧ m.read (4 * k + 3) = some (data.extractLsb' 24 8) ∧
          ∀ a, (a < 4 * k ∨ 4 * k + 4 ≤ a) → m.read a = s.ksrc.read a) ∧
      (∀ w < 1042, off.toNat = 0x2000 + 4 * w →
        ∃ m, step s = .next { s with ktab := m, pending := rest, responses := .ok :: s.responses } ∧
          m.read (4 * w) = some (data.extractLsb' 0 8) ∧ m.read (4 * w + 1) = some (data.extractLsb' 8 8) ∧
          m.read (4 * w + 2) = some (data.extractLsb' 16 8) ∧ m.read (4 * w + 3) = some (data.extractLsb' 24 8) ∧
          ∀ a, (a < 4 * w ∨ 4 * w + 4 ≤ a) → m.read a = s.ktab.read a) ∧
      ((0x0018 ≤ off.toNat ∧ off.toNat ≤ 0x0FFF) ∨ 0x3048 ≤ off.toNat →
        step s = .next { s with pending := rest, responses := .busError :: s.responses }))

/-- R57, R61: a read has no side effect, and two reads with no write between return the same word. -/
def Obligations.ReadsChangeNothingAndRepeat : Prop :=
  ∀ (s t : State) (off : Offset) (size : Nat) (rest : List Event),
    s.pending = .txn ⟨off, .read size⟩ :: rest → step s = .next t →
    t.block = s.block ∧
    ∀ rest', rest = .txn ⟨off, .read size⟩ :: rest' →
      ∃ u r, step t = .next u ∧ t.responses = r :: s.responses ∧ u.responses = r :: r :: s.responses

/-- R65: a read of a KSRC word returns the latest accepted write to it, whatever commands and other accesses come
between, short of a reset and of another write to that word. -/
def Obligations.KsrcReadReturnsTheLatestWrite : Prop :=
  ∀ (s t : State) (k : Nat) (v : Word) (evs : List Event), k < 1024 →
    (∀ e ∈ evs, e ≠ .reset ∧ ∀ d, e ≠ .txn ⟨BitVec.ofNat 14 (0x1000 + 4 * k), .write 4 d⟩) →
    core.run (evs.length + 2)
      { s with pending := .txn ⟨BitVec.ofNat 14 (0x1000 + 4 * k), .write 4 v⟩ ::
                 (evs ++ [.txn ⟨BitVec.ofNat 14 (0x1000 + 4 * k), .read 4⟩]) } = .next t →
    t.responses.head? = some (.data v)

/-- R30, R54: the register map both ways: an offset selects a target on an aligned 4-byte access exactly when it is
that target's offset, the windows' words being the ones at multiples of 4 below 0x1000 and 0x1048 (R88). -/
def Obligations.TargetsAndOffsetsCorrespond : Prop :=
  ∀ (off : Offset) (t : Target), busTarget off 4 = some t ↔ (t.wellFormed = true ∧ targetOffset t = off.toNat)

/-! ### The CRC generator -/

/-- R104: `CRC_INIT` loads 0xFFFF, completes with code 0 and changes nothing else; its word is 0x00000001, and with a
non-zero `ARG` or `RSVD` the word is illegal and `CRC` is unchanged. -/
def Obligations.CrcInitLoadsTheInitialValue : Prop :=
  (∀ s : State, exec .crcInit s = .next { s with crc := 0xFFFF, lastErr := 0 }) ∧
  decode 0x00000001 = .ok .crcInit ∧
  (∀ (w : Word) (s : State), w.extractLsb' 0 8 = (0x01 : Byte) → w ≠ 0x00000001 →
    execute w s = .next { s with lastErr := 2, errSticky := true })

/-- R105 with R101: `CRC_UPDATE b` XORs the byte into the low end and shifts eight times, XORing 0xA001 in where the bit
shifted out is 1; it completes with code 0 and changes nothing else. Its word is `0x00000002 | b << 8`; with
`RSVD != 0` the word is illegal and `CRC` is unchanged. The bit loop is the spec's own general-knowledge passage
(93_implementation_defined.md G1), PRESUMED in log entry 9. -/
def Obligations.CrcUpdateFoldsOneByte : Prop :=
  (∀ (s : State) (b : Byte), exec (.crcUpdate b) s = .next { s with
    crc := Nat.iterate (fun c : Half => if c.toNat % 2 = 1 then (c >>> 1) ^^^ 0xA001 else c >>> 1) 8
      (s.crc ^^^ BitVec.ofNat 16 b.toNat)
    lastErr := 0 }) ∧
  (∀ b : Byte, decode (BitVec.ofNat 32 (2 + 256 * b.toNat)) = .ok (.crcUpdate b)) ∧
  (∀ (w : Word) (s : State), w.extractLsb' 0 8 = (0x02 : Byte) → w.extractLsb' 16 16 ≠ (0 : Half) →
    execute w s = .next { s with lastErr := 2, errSticky := true })

/-- R101, R107: the one-byte step is linear over GF(2), register and byte together. It rests on the
bit loop of log entry 9 (PRESUMED, G1). -/
def Obligations.CrcStepIsLinear : Prop :=
  ∀ (c d : Half) (a b : Byte), crcStep (c ^^^ d) (a ^^^ b) = crcStep c a ^^^ crcStep d b

/-- R102, R103: a message followed by its own checksum, stored low byte first, has checksum 0. The spec computes this
for one message (V-CRC-12); here for every one. It rests on the bit loop of log entry 9 (PRESUMED, G1). -/
def Obligations.AppendedChecksumGivesZero : Prop :=
  ∀ bs : List Byte, crc16 (bs ++ crcField (crc16 bs)) = 0

/-- R100, R102 and the vectors of 95_test_vectors.md: the empty sequence gives 0xFFFF (V-SRC-4), "123456789" gives
0x4B37 (V-CRC-6), and the Modbus frame of V-CRC-7 is stored as C5 CD. It rests on the bit loop of log
entry 9 (PRESUMED, G1); the two last values are the spec's passage G2. -/
def Obligations.CrcMatchesThePublishedVectors : Prop :=
  crc16 [] = 0xFFFF ∧
  crc16 [0x31, 0x32, 0x33, 0x34, 0x35, 0x36, 0x37, 0x38, 0x39] = 0x4B37 ∧
  crcField (crc16 [0x01, 0x03, 0x00, 0x00, 0x00, 0x0A]) = [0xC5, 0xCD]

/-- R106, R90's `CRC16 b1, ..., bn`: from every state, whatever `CRC` holds, the initialisation, the updates and the
read complete, the read returns the checksum of the bytes, and nothing but `CRC` and `LAST_ERR` has changed. -/
def Obligations.CrcMacroReturnsTheChecksum : Prop :=
  ∀ (s : State) (bs : List Byte),
    core.run (bs.length + 2) { s with pending := (Pseudo.crc16 bs).events } = .next { s with
      crc := crc16 bs
      lastErr := 0
      pending := []
      responses := .data (BitVec.ofNat 32 (crc16 bs).toNat) ::
        (List.replicate (bs.length + 1) Response.ok ++ s.responses) }

/-- R106: after `CRC_INIT`, `CRC` is the checksum of the bytes updated since, whatever comes between that is neither a
CRC_INIT nor a reset: commands of the other families, illegal words, reads and writes. -/
def Obligations.CrcFollowsItsUpdatesOnly : Prop :=
  ∀ (s t : State) (evs : List Event),
    (∀ e ∈ evs, e ≠ .reset ∧ e ≠ .txn ⟨0x0000, .write 4 0x00000001⟩) →
    core.run (evs.length + 1) { s with pending := .txn ⟨0x0000, .write 4 0x00000001⟩ :: evs } = .next t →
    t.crc = crc16 (evs.filterMap (fun e =>
      match e with
      | .txn ⟨off, .write size w⟩ =>
        if off = 0x0000 ∧ size = 4 ∧ w &&& 0xFFFF00FF = 0x00000002 then some (w.extractLsb' 8 8) else none
      | .txn ⟨_, .read _⟩ => none
      | .reset => none))

/-! ### The key-table engine -/

/-- R122, R123, R124: with the declared length 0x1000 and all of `KSRC` written, `KT_BUILD` completes with code 0; the
whole of `KTAB` is written, byte `x` of the header being the byte of `KSRC` at `0x100 * (x mod 16) + KSRC[x]`, the body
a copy of `KSRC`; and nothing else changes, `KSRC` included. -/
def Obligations.KtBuildDerivesTheKeyTable : Prop :=
  ∀ s : State, s.Inv → s.ksrcLen = 0x1000 → (∀ i < 0x1000, (s.ksrc.read i).isSome) →
    ∃ m : Memory, exec .ktBuild s = .next { s with ktab := m, lastErr := 0 } ∧
      m.wf 0x1048 ∧ (∀ a < 0x1048, (m.read a).isSome) ∧
      (∀ x < 0x48, ∀ b : Byte, s.ksrc.read x = some b → m.read x = s.ksrc.read (0x100 * (x % 16) + b.toNat)) ∧
      (∀ i < 0x1000, m.read (0x48 + i) = s.ksrc.read i)

/-- R121, R173: with any other declared length `KT_BUILD` ends with INVALID_INPUT_SIZE and changes nothing but STATUS;
no other command ends with that code. -/
def Obligations.KtBuildRefusesOtherLengths : Prop :=
  (∀ s : State, s.ksrcLen ≠ 0x1000 → exec .ktBuild s = .next { s with lastErr := 1, errSticky := true }) ∧
  (∀ (i : Instr) (s t : State), exec i s = .next t → t.lastErr = 1 → i = .ktBuild ∧ s.ksrcLen ≠ 0x1000)

/-- 93_implementation_defined.md I1: `KT_BUILD` stops exactly when it passes its size check while a byte of `KSRC` is
unwritten; a build refused for its size reads nothing and does not stop. -/
def Obligations.KtBuildStopsExactlyOnUnwrittenSource : Prop :=
  ∀ s : State, s.Inv →
    (exec .ktBuild s = .fault .ktBuildUnwritten ↔ (s.ksrcLen = 0x1000 ∧ ∃ i < 0x1000, s.ksrc.read i = none))

/-- R128: builds from key sources that read alike give the same key table, whatever `KTAB` and every other element held
before; and building again changes no byte of it. -/
def Obligations.KtBuildIsDeterministic : Prop :=
  ∀ s s' t t' : State, s.Inv → s'.Inv → s.ksrcLen = 0x1000 → s'.ksrcLen = 0x1000 →
    (∀ a, s.ksrc.read a = s'.ksrc.read a) → exec .ktBuild s = .next t → exec .ktBuild s' = .next t' →
    t.ktab = t'.ktab ∧ exec .ktBuild t = .next t

/-- R27: after a successful build, word `0x12 + k` of `KTAB`, where the lookup tables lie, is word `k` of `KSRC`. -/
def Obligations.LookupTablesAreTheKeySource : Prop :=
  ∀ s t : State, s.Inv → s.ksrcLen = 0x1000 → exec .ktBuild s = .next t →
    ∀ k < 1024, t.ktab.readWord (4 * (0x12 + k)) = s.ksrc.readWord (4 * k) ∧ (s.ksrc.readWord (4 * k)).isSome

/-- R127: header positions that agree modulo 16 and hold equal selector bytes select the same byte, so the header is a
selection, not in general a permutation (90_conflicts.md C1). -/
def Obligations.EqualSelectorsSelectOneByte : Prop :=
  ∀ (s t : State) (x y : Nat), s.Inv → s.ksrcLen = 0x1000 → exec .ktBuild s = .next t →
    x < 0x48 → y < 0x48 → x % 16 = y % 16 → s.ksrc.read x = s.ksrc.read y → t.ktab.read x = t.ktab.read y

/-! ### The cipher -/

/-- R142 with R140, R141: with all of `KTAB` written, `T[w]` its word `w`, `CIPHER_FWD` runs sixteen rounds with round
keys 0 .. 15 from `x = DATA1`, `y = DATA0`, whitens with `T[0x10]` and `T[0x11]`, completes with code 0 and changes
nothing else. Its word is 0x00000020; with a non-zero `ARG` or `RSVD` the word is illegal and the data words unchanged. -/
def Obligations.CipherFwdEnciphers : Prop :=
  (∀ (s : State) (T x y : Nat → Word) (F : Word → Word), s.Inv → (∀ w < 1042, s.ktab.readWord (4 * w) = some (T w)) →
      (∀ z : Word, F z =
        ((T (0x012 + (z.extractLsb' 24 8).toNat) + T (0x112 + (z.extractLsb' 16 8).toNat)) ^^^
          T (0x212 + (z.extractLsb' 8 8).toNat)) + T (0x312 + (z.extractLsb' 0 8).toNat)) →
      x 0 = s.data1 → y 0 = s.data0 →
      (∀ i < 16, y (i + 1) = T i ^^^ x i ∧ x (i + 1) = y i ^^^ F (y (i + 1))) →
      exec .cipherFwd s = .next { s with data0 := x 16 ^^^ T 0x10, data1 := y 16 ^^^ T 0x11, lastErr := 0 }) ∧
  decode 0x00000020 = .ok .cipherFwd ∧
  (∀ (w : Word) (s : State), w.extractLsb' 0 8 = (0x20 : Byte) → w ≠ 0x00000020 →
    execute w s = .next { s with lastErr := 2, errSticky := true })

/-- R143 with R140, R141: as R142, with round keys 0x11 down to 2, the whitening words `T[0x1]`, `T[0x0]` and the word
0x00000021. -/
def Obligations.CipherRevDeciphers : Prop :=
  (∀ (s : State) (T x y : Nat → Word) (F : Word → Word), s.Inv → (∀ w < 1042, s.ktab.readWord (4 * w) = some (T w)) →
      (∀ z : Word, F z =
        ((T (0x012 + (z.extractLsb' 24 8).toNat) + T (0x112 + (z.extractLsb' 16 8).toNat)) ^^^
          T (0x212 + (z.extractLsb' 8 8).toNat)) + T (0x312 + (z.extractLsb' 0 8).toNat)) →
      x 0 = s.data1 → y 0 = s.data0 →
      (∀ j < 16, y (j + 1) = T (0x11 - j) ^^^ x j ∧ x (j + 1) = y j ^^^ F (y (j + 1))) →
      exec .cipherRev s = .next { s with data0 := x 16 ^^^ T 0x1, data1 := y 16 ^^^ T 0x0, lastErr := 0 }) ∧
  decode 0x00000021 = .ok .cipherRev ∧
  (∀ (w : Word) (s : State), w.extractLsb' 0 8 = (0x21 : Byte) → w ≠ 0x00000021 →
    execute w s = .next { s with lastErr := 2, errSticky := true })

/-- R144, the cipher's defining law: under every table, `CIPHER_FWD` completes, and `CIPHER_REV` in any later state that
holds the same table and the data words it left completes and restores them, changing nothing else but `LAST_ERR`. -/
def Obligations.ReverseUndoesForward : Prop :=
  ∀ s : State, s.Inv → s.KeyTableWritten →
    ∃ t, exec .cipherFwd s = .next t ∧
      ∀ u : State, u.ktab = t.ktab → u.data0 = t.data0 → u.data1 = t.data1 →
        exec .cipherRev u = .next { u with data0 := s.data0, data1 := s.data1, lastErr := 0 }

/-- R145, the converse, which the spec derives: `CIPHER_REV` then `CIPHER_FWD` restores the block too. -/
def Obligations.ForwardUndoesReverse : Prop :=
  ∀ s : State, s.Inv → s.KeyTableWritten →
    ∃ t, exec .cipherRev s = .next t ∧
      ∀ u : State, u.ktab = t.ktab → u.data0 = t.data0 → u.data1 = t.data1 →
        exec .cipherFwd u = .next { u with data0 := s.data0, data1 := s.data1, lastErr := 0 }

/-- 93_implementation_defined.md I1: each cipher command stops exactly when a byte of `KTAB` is unwritten, whichever
words its data would select. -/
def Obligations.CipherStopsExactlyOnUnwrittenTable : Prop :=
  ∀ s : State, s.Inv →
    (exec .cipherFwd s = .fault .cipherUnwritten ↔ ∃ i < 0x1048, s.ktab.read i = none) ∧
    (exec .cipherRev s = .fault .cipherUnwritten ↔ ∃ i < 0x1048, s.ktab.read i = none)

/-! ### Status, and who writes what -/

/-- R172 with R171's codes: every CMD write that completes leaves in `LAST_ERR` its code (2 for an illegal word, 1 for a
`KT_BUILD` whose declared length is not 0x1000, else 0), and a non-zero code sets `ERR_STICKY`, a zero one keeps it. -/
def Obligations.EveryCommandWriteCompletesStatus : Prop :=
  ∀ (s t : State) (w : Word) (rest : List Event),
    s.pending = .txn ⟨0x0000, .write 4 w⟩ :: rest → step s = .next t →
    t.lastErr = (match decode w with
      | .error _ => 2
      | .ok i => if i = .ktBuild ∧ s.ksrcLen ≠ 0x1000 then 1 else 0) ∧
    t.errSticky = (s.errSticky || t.lastErr != 0)

/-- R29: `ERR_STICKY` is "cleared only by a host write of 1 to it or by reset". -/
def Obligations.StickyClearedOnlyByWriteOneOrReset : Prop :=
  ∀ s t : State, step s = .next t → s.errSticky = true → t.errSticky = false →
    ∃ rest, s.pending = .reset :: rest ∨
      ∃ d : Word, d.getLsbD 8 = true ∧ s.pending = .txn ⟨0x0004, .write 4 d⟩ :: rest

/-- R23: `CRC` is "Written by `CRC_INIT`, `CRC_UPDATE` and reset only". -/
def Obligations.CrcWrittenOnlyByItsCommandsOrReset : Prop :=
  ∀ s t : State, step s = .next t → t.crc ≠ s.crc →
    ∃ rest, s.pending = .reset :: rest ∨
      ∃ w : Word, s.pending = .txn ⟨0x0000, .write 4 w⟩ :: rest ∧
        (decode w = .ok .crcInit ∨ ∃ b, decode w = .ok (.crcUpdate b))

/-- R24: `KSRC` is written by the host through its window, and "no command writes it"; reset leaves it unspecified. -/
def Obligations.KsrcWrittenOnlyThroughItsWindowOrReset : Prop :=
  ∀ s t : State, step s = .next t → t.ksrc ≠ s.ksrc →
    ∃ rest, s.pending = .reset :: rest ∨
      ∃ (off : Offset) (d : Word), 0x1000 ≤ off.toNat ∧ off.toNat ≤ 0x1FFF ∧
        s.pending = .txn ⟨off, .write 4 d⟩ :: rest

/-- R25: `KSRC_LEN` "is written only by the host (rule R33) and by reset". -/
def Obligations.KsrcLenWrittenOnlyByTheHostOrReset : Prop :=
  ∀ s t : State, step s = .next t → t.ksrcLen ≠ s.ksrcLen →
    ∃ rest, s.pending = .reset :: rest ∨ ∃ d : Word, s.pending = .txn ⟨0x000C, .write 4 d⟩ :: rest

/-- R26: `KTAB` is written by a successful `KT_BUILD` and by the host through its window; reset leaves it unspecified. -/
def Obligations.KtabWrittenOnlyByBuildWindowOrReset : Prop :=
  ∀ s t : State, step s = .next t → t.ktab ≠ s.ktab →
    ∃ rest, s.pending = .reset :: rest ∨
      (s.pending = .txn ⟨0x0000, .write 4 0x00000010⟩ :: rest ∧ s.ksrcLen = 0x1000) ∨
      ∃ (off : Offset) (d : Word), 0x2000 ≤ off.toNat ∧ off.toNat ≤ 0x3047 ∧
        s.pending = .txn ⟨off, .write 4 d⟩ :: rest

/-- R28: `DATA0` and `DATA1` are written by the host and by the two cipher commands, and by reset. -/
def Obligations.DataWrittenOnlyByHostCipherOrReset : Prop :=
  ∀ s t : State, step s = .next t →
    (t.data0 ≠ s.data0 → ∃ rest, s.pending = .reset :: rest ∨
      (∃ d : Word, s.pending = .txn ⟨0x0010, .write 4 d⟩ :: rest) ∨
      ∃ w : Word, (w = 0x00000020 ∨ w = 0x00000021) ∧ s.pending = .txn ⟨0x0000, .write 4 w⟩ :: rest) ∧
    (t.data1 ≠ s.data1 → ∃ rest, s.pending = .reset :: rest ∨
      (∃ d : Word, s.pending = .txn ⟨0x0014, .write 4 d⟩ :: rest) ∨
      ∃ w : Word, (w = 0x00000020 ∨ w = 0x00000021) ∧ s.pending = .txn ⟨0x0000, .write 4 w⟩ :: rest)

/-- R3: "the CRC generator is independent of both": two blocks that agree on `CRC` and meet the same events agree on it
after, whatever their keys, tables and data words. -/
def Obligations.CrcIsIndependentOfTheOtherEngines : Prop :=
  ∀ (n : Nat) (s s' t t' : State), s.crc = s'.crc → s.pending = s'.pending →
    core.run n s = .next t → core.run n s' = .next t' → t.crc = t'.crc

/-! ### Reset, idling, the window -/

/-- R41: the reset values; and both memories hold no value a reader could use. -/
def Obligations.ResetValues : Prop :=
  State.reset.crc = 0xFFFF ∧ State.reset.ksrcLen = 0x0000 ∧ State.reset.data0 = 0x00000000 ∧
  State.reset.data1 = 0x00000000 ∧ State.reset.lastErr = 0 ∧ State.reset.errSticky = false ∧
  (∀ a, State.reset.ksrc.read a = none) ∧ (∀ a, State.reset.ktab.read a = none)

/-- R200: the reset event, from every state: every element takes its reset value, and no byte of either memory keeps a
value a proof could use. -/
def Obligations.ResetEventRestoresTheResetValues : Prop :=
  ∀ (s : State) (rest : List Event), s.pending = .reset :: rest →
    ∃ t, step s = .next t ∧ t.crc = 0xFFFF ∧ t.ksrcLen = 0 ∧ t.data0 = 0 ∧ t.data1 = 0 ∧ t.lastErr = 0 ∧
      t.errSticky = false ∧ (∀ a, t.ksrc.read a = none) ∧ (∀ a, t.ktab.read a = none)

/-- R186, R202: with no event in store the block is idle and holds its state; that the model's step is then the
unchanged state is its own choice (log entry 1). -/
def Obligations.IdleBlockHoldsItsState : Prop :=
  ∀ (n : Nat) (s : State), s.pending = [] → core.run n s = .next s

/-- R8, R38, R63: for every base, a platform address reaches the block exactly inside the 0x4000-byte window, at its
offset from the base; an access outside changes nothing. -/
def Obligations.WindowPlacesOffsetsAtTheBase : Prop :=
  ∀ (base addr : Nat),
    (∀ off : Offset, windowOffset base addr = some off ↔ addr = base + off.toNat) ∧
    (∀ (a : Access) (s : State), (addr < base ∨ base + 0x4000 ≤ addr) → s.submit base addr a = s) ∧
    (∀ (a : Access) (s : State), base ≤ addr → addr < base + 0x4000 →
      s.submit base addr a = { s with pending := s.pending ++ [.txn ⟨BitVec.ofNat 14 (addr - base), a⟩] })

/-- R90's `KSRC.LOAD s`: from every state, for every 4096 bytes, the 1025 writes complete, `KSRC` then holds exactly
those bytes and `KSRC_LEN` 0x1000, and nothing else has changed. -/
def Obligations.KsrcLoadFillsTheKeySource : Prop :=
  ∀ (s : State) (bs : List Byte), s.Inv → bs.length = 0x1000 →
    ∃ m : Memory, core.run 1025 { s with pending := (Pseudo.ksrcLoad bs).events } = .next { s with
        ksrc := m
        ksrcLen := 0x1000
        pending := []
        responses := List.replicate 1025 Response.ok ++ s.responses } ∧
      m.wf 0x1000 ∧ ∀ i < 0x1000, m.read i = bs[i]?

/-! ### Invariants -/

/-- The invariant holds at reset. -/
def Obligations.InvHoldsAtReset : Prop := State.reset.Inv

/-- Every step keeps the invariant: both memories stay in canonical form inside their size (R24, R26), and `LAST_ERR`
never holds a reserved code (R171). -/
def Obligations.StepKeepsInv : Prop :=
  ∀ s t : State, s.Inv → step s = .next t → t.Inv

/-- R203 with 93_implementation_defined.md I1: once all of `KSRC` and `KTAB` is written, no sequence of transactions
whatever, legal or not, stops the model before the next reset. -/
def Obligations.LoadedBlockNeverStops : Prop :=
  ∀ (n : Nat) (s : State), s.Inv → s.KeySourceWritten → s.KeyTableWritten → Event.reset ∉ s.pending → SafeRun n s

/-- 93_implementation_defined.md I1: nothing is ever refused a meaning, and a step stops only where some byte of `KSRC`
or `KTAB` has not been written since reset. -/
def Obligations.OnlyUnwrittenBytesStopAStep : Prop :=
  ∀ s : State, s.Inv → (∀ r, step s ≠ .refused r) ∧
    ∀ f, step s = .fault f →
      ((f = .ksrcReadUnwritten ∨ f = .ktBuildUnwritten) ∧ ∃ i < 0x1000, s.ksrc.read i = none) ∨
      ((f = .ktabReadUnwritten ∨ f = .cipherUnwritten) ∧ ∃ i < 0x1048, s.ktab.read i = none)
end

