-- ==== Sys2Proof/Laws/State.lean ====
section
/-! SUPPORT. One lemma per field per update of the state, each true by rfl, so that no proof unfolds a record update. -/

namespace Sys2Proof.Machine

@[simp] theorem State.complete_crc (code : ErrorCode) (s : State) : (s.complete code).crc = s.crc := rfl
@[simp] theorem State.complete_ksrc (code : ErrorCode) (s : State) : (s.complete code).ksrc = s.ksrc := rfl
@[simp] theorem State.complete_ksrcLen (code : ErrorCode) (s : State) : (s.complete code).ksrcLen = s.ksrcLen := rfl
@[simp] theorem State.complete_ktab (code : ErrorCode) (s : State) : (s.complete code).ktab = s.ktab := rfl
@[simp] theorem State.complete_data0 (code : ErrorCode) (s : State) : (s.complete code).data0 = s.data0 := rfl
@[simp] theorem State.complete_data1 (code : ErrorCode) (s : State) : (s.complete code).data1 = s.data1 := rfl
@[simp] theorem State.complete_lastErr (code : ErrorCode) (s : State) : (s.complete code).lastErr = code.bits := rfl
@[simp] theorem State.complete_errSticky (code : ErrorCode) (s : State) : (s.complete code).errSticky = (s.errSticky || code.failed) := rfl
@[simp] theorem State.complete_pending (code : ErrorCode) (s : State) : (s.complete code).pending = s.pending := rfl
@[simp] theorem State.complete_responses (code : ErrorCode) (s : State) : (s.complete code).responses = s.responses := rfl

@[simp] theorem State.raise_crc (code : ErrorCode) (s : State) : (s.raise code).crc = s.crc := rfl
@[simp] theorem State.raise_ksrc (code : ErrorCode) (s : State) : (s.raise code).ksrc = s.ksrc := rfl
@[simp] theorem State.raise_ksrcLen (code : ErrorCode) (s : State) : (s.raise code).ksrcLen = s.ksrcLen := rfl
@[simp] theorem State.raise_ktab (code : ErrorCode) (s : State) : (s.raise code).ktab = s.ktab := rfl
@[simp] theorem State.raise_data0 (code : ErrorCode) (s : State) : (s.raise code).data0 = s.data0 := rfl
@[simp] theorem State.raise_data1 (code : ErrorCode) (s : State) : (s.raise code).data1 = s.data1 := rfl
@[simp] theorem State.raise_lastErr (code : ErrorCode) (s : State) : (s.raise code).lastErr = code.bits := rfl
@[simp] theorem State.raise_errSticky (code : ErrorCode) (s : State) : (s.raise code).errSticky = (s.errSticky || code.failed) := rfl
@[simp] theorem State.raise_pending (code : ErrorCode) (s : State) : (s.raise code).pending = s.pending := rfl
@[simp] theorem State.raise_responses (code : ErrorCode) (s : State) : (s.raise code).responses = s.responses := rfl

@[simp] theorem State.respond_crc (r : Response) (s : State) : (s.respond r).crc = s.crc := rfl
@[simp] theorem State.respond_ksrc (r : Response) (s : State) : (s.respond r).ksrc = s.ksrc := rfl
@[simp] theorem State.respond_ksrcLen (r : Response) (s : State) : (s.respond r).ksrcLen = s.ksrcLen := rfl
@[simp] theorem State.respond_ktab (r : Response) (s : State) : (s.respond r).ktab = s.ktab := rfl
@[simp] theorem State.respond_data0 (r : Response) (s : State) : (s.respond r).data0 = s.data0 := rfl
@[simp] theorem State.respond_data1 (r : Response) (s : State) : (s.respond r).data1 = s.data1 := rfl
@[simp] theorem State.respond_lastErr (r : Response) (s : State) : (s.respond r).lastErr = s.lastErr := rfl
@[simp] theorem State.respond_errSticky (r : Response) (s : State) : (s.respond r).errSticky = s.errSticky := rfl
@[simp] theorem State.respond_pending (r : Response) (s : State) : (s.respond r).pending = s.pending := rfl
@[simp] theorem State.respond_responses (r : Response) (s : State) : (s.respond r).responses = r :: s.responses := rfl

@[simp] theorem State.writeStatus_crc (data : Word) (s : State) : (s.writeStatus data).crc = s.crc := rfl
@[simp] theorem State.writeStatus_ksrc (data : Word) (s : State) : (s.writeStatus data).ksrc = s.ksrc := rfl
@[simp] theorem State.writeStatus_ksrcLen (data : Word) (s : State) : (s.writeStatus data).ksrcLen = s.ksrcLen := rfl
@[simp] theorem State.writeStatus_ktab (data : Word) (s : State) : (s.writeStatus data).ktab = s.ktab := rfl
@[simp] theorem State.writeStatus_data0 (data : Word) (s : State) : (s.writeStatus data).data0 = s.data0 := rfl
@[simp] theorem State.writeStatus_data1 (data : Word) (s : State) : (s.writeStatus data).data1 = s.data1 := rfl
@[simp] theorem State.writeStatus_lastErr (data : Word) (s : State) : (s.writeStatus data).lastErr = s.lastErr := rfl
@[simp] theorem State.writeStatus_errSticky (data : Word) (s : State) : (s.writeStatus data).errSticky = (s.errSticky && !data.getLsbD 8) := rfl
@[simp] theorem State.writeStatus_pending (data : Word) (s : State) : (s.writeStatus data).pending = s.pending := rfl
@[simp] theorem State.writeStatus_responses (data : Word) (s : State) : (s.writeStatus data).responses = s.responses := rfl

@[simp] theorem State.resetEvent_crc (s : State) : s.resetEvent.crc = 0xFFFF := rfl
@[simp] theorem State.resetEvent_ksrc (s : State) : s.resetEvent.ksrc = [] := rfl
@[simp] theorem State.resetEvent_ksrcLen (s : State) : s.resetEvent.ksrcLen = 0 := rfl
@[simp] theorem State.resetEvent_ktab (s : State) : s.resetEvent.ktab = [] := rfl
@[simp] theorem State.resetEvent_data0 (s : State) : s.resetEvent.data0 = 0 := rfl
@[simp] theorem State.resetEvent_data1 (s : State) : s.resetEvent.data1 = 0 := rfl
@[simp] theorem State.resetEvent_lastErr (s : State) : s.resetEvent.lastErr = 0 := rfl
@[simp] theorem State.resetEvent_errSticky (s : State) : s.resetEvent.errSticky = false := rfl
@[simp] theorem State.resetEvent_pending (s : State) : s.resetEvent.pending = s.pending := rfl
@[simp] theorem State.resetEvent_responses (s : State) : s.resetEvent.responses = s.responses := rfl

@[simp] theorem State.block_crc (s : State) : s.block.crc = s.crc := rfl
@[simp] theorem State.block_ksrc (s : State) : s.block.ksrc = s.ksrc := rfl
@[simp] theorem State.block_ksrcLen (s : State) : s.block.ksrcLen = s.ksrcLen := rfl
@[simp] theorem State.block_ktab (s : State) : s.block.ktab = s.ktab := rfl
@[simp] theorem State.block_data0 (s : State) : s.block.data0 = s.data0 := rfl
@[simp] theorem State.block_data1 (s : State) : s.block.data1 = s.data1 := rfl
@[simp] theorem State.block_lastErr (s : State) : s.block.lastErr = s.lastErr := rfl
@[simp] theorem State.block_errSticky (s : State) : s.block.errSticky = s.errSticky := rfl
@[simp] theorem State.block_pending (s : State) : s.block.pending = [] := rfl
@[simp] theorem State.block_responses (s : State) : s.block.responses = [] := rfl

@[simp] theorem ErrorCode.none_bits : ErrorCode.none.bits = 0 := rfl
@[simp] theorem ErrorCode.invalidInputSize_bits : ErrorCode.invalidInputSize.bits = 1 := rfl
@[simp] theorem ErrorCode.illegalCommand_bits : ErrorCode.illegalCommand.bits = 2 := rfl
@[simp] theorem ErrorCode.none_failed : ErrorCode.none.failed = false := rfl
@[simp] theorem ErrorCode.invalidInputSize_failed : ErrorCode.invalidInputSize.failed = true := rfl
@[simp] theorem ErrorCode.illegalCommand_failed : ErrorCode.illegalCommand.failed = true := rfl

@[simp] theorem answerOk_next (s : State) : answerOk (.next s) = .next (s.respond .ok) := rfl
@[simp] theorem answerOk_fault (r : Fault) : answerOk (.fault r) = .fault r := rfl
@[simp] theorem answerOk_refused (r : Refusal) : answerOk (.refused r) = .refused r := rfl

/-- An answered write goes on exactly where the write itself does, with `OK` recorded. -/
theorem answerOk_eq_next {o : Host.Outcome State Fault Refusal} {t : State} :
    answerOk o = .next t ↔ ∃ u, o = .next u ∧ t = u.respond .ok := by
  cases o <;> simp [answerOk, eq_comm]

/-- No error code of the block is a reserved one (60_exceptions.md R171). -/
theorem ErrorCode.bits_le (c : ErrorCode) : c.bits.toNat ≤ 2 := by cases c <;> decide

/-- What an error does is what a completion with its code does, and nothing else (R172). -/
theorem State.raise_eq_complete (code : ErrorCode) (s : State) : s.raise code = s.complete code := rfl

end Sys2Proof.Machine
end

