-- ==== Sys2Proof/Laws/Memory.lean ====
section
/-! SUPPORT. The laws of the byte memories: read after write, the canonical form and that every operation keeps it, the
word view, and when a whole memory can be consumed. -/

namespace Sys2Proof.Machine

/-! ### Bytes -/

@[simp] theorem Memory.read_nil (a : Nat) : Memory.read [] a = none := rfl

@[simp] theorem Memory.read_write_same (m : Memory) (a : Nat) (b : Byte) : (m.write a b).read a = some b := by
  induction m with
  | nil => simp [Memory.write, Memory.read]
  | cons c rest ih =>
    obtain ⟨k, d⟩ := c
    simp only [Memory.write]
    split
    · simp [Memory.read]
    · split
      · simp [Memory.read]
      · have : ¬ k = a := fun h => ‹¬ a = k› h.symm
        simp [Memory.read, this, ih]

theorem Memory.read_write_other (m : Memory) {a c : Nat} (b : Byte) (h : c ≠ a) :
    (m.write a b).read c = m.read c := by
  induction m with
  | nil => simp [Memory.write, Memory.read, h.symm]
  | cons e rest ih =>
    obtain ⟨k, d⟩ := e
    simp only [Memory.write]
    split
    · simp [Memory.read, h.symm]
    · split
      · subst k; simp [Memory.read, h.symm]
      · simp [Memory.read, ih]

theorem Memory.read_write (m : Memory) (a c : Nat) (b : Byte) :
    (m.write a b).read c = if c = a then some b else m.read c := by
  split
  · subst c; simp
  · exact Memory.read_write_other m b ‹_›

/-! ### The canonical form -/

theorem Memory.mem_write {m : Memory} {a : Nat} {b : Byte} {c : Host.Cell} (h : c ∈ m.write a b) :
    c = (a, b) ∨ c ∈ m := by
  induction m with
  | nil => simpa [Memory.write] using h
  | cons e rest ih =>
    obtain ⟨k, d⟩ := e
    simp only [Memory.write] at h
    split at h
    · simpa using h
    · split at h
      · rcases List.mem_cons.1 h with h | h
        · exact .inl h
        · exact .inr (List.mem_cons_of_mem _ h)
      · rcases List.mem_cons.1 h with h | h
        · exact .inr (h ▸ List.mem_cons_self)
        · exact (ih h).imp_right (List.mem_cons_of_mem _)

theorem Memory.wf_nil (size : Nat) : Memory.wf size [] := by simp [Memory.wf]

/-- Writing a byte inside the memory keeps the canonical form. -/
theorem Memory.write_wf {size : Nat} {m : Memory} {a : Nat} (b : Byte) (h : m.wf size) (ha : a < size) :
    (m.write a b).wf size := by
  refine ⟨?_, fun c hc => ?_⟩
  · have hp := h.1
    clear h ha
    induction m with
    | nil => simp [Memory.write]
    | cons e rest ih =>
      obtain ⟨k, d⟩ := e
      obtain ⟨hk, hr⟩ := List.pairwise_cons.1 hp
      simp only [Memory.write]
      split
      · refine List.pairwise_cons.2 ⟨fun c hc => ?_, hp⟩
        rcases List.mem_cons.1 hc with rfl | hc
        · assumption
        · exact Nat.lt_trans ‹a < k› (hk c hc)
      · split
        · subst a; exact List.pairwise_cons.2 ⟨hk, hr⟩
        · refine List.pairwise_cons.2 ⟨fun c hc => ?_, ih hr⟩
          rcases Memory.mem_write hc with rfl | hc
          · show k < a; omega
          · exact hk c hc
  · rcases Memory.mem_write hc with rfl | hc
    · exact ha
    · exact h.2 c hc

theorem Memory.read_isSome_iff {m : Memory} {a : Nat} : (m.read a).isSome ↔ a ∈ m.map Prod.fst := by
  induction m with
  | nil => simp
  | cons e rest ih =>
    obtain ⟨k, d⟩ := e
    by_cases h : k = a
    · simp [Memory.read, h]
    · simp [Memory.read, h, ih, Ne.symm h]

theorem Memory.read_eq_none_of_lt {m : Memory} {a : Nat} (h : ∀ c ∈ m, a < c.1) : m.read a = none := by
  induction m with
  | nil => rfl
  | cons e rest ih =>
    obtain ⟨k, d⟩ := e
    have hk : a < k := h _ List.mem_cons_self
    have hka : k ≠ a := by omega
    simp only [Memory.read, if_neg hka]
    exact ih fun c hc => h c (List.mem_cons_of_mem _ hc)

/-- A canonical memory lists nothing outside its size. -/
theorem Memory.read_outside {size : Nat} {m : Memory} (h : m.wf size) {a : Nat} (ha : size ≤ a) :
    m.read a = none := by
  by_contra hne
  have : a ∈ m.map Prod.fst := Memory.read_isSome_iff.1 (Option.isSome_iff_ne_none.2 hne)
  obtain ⟨c, hc, rfl⟩ := List.mem_map.1 this
  exact absurd (h.2 c hc) (by omega)

/-- Canonical memories that read alike are equal: equal memories are equal data. -/
theorem Memory.eq_of_read_eq {m m' : Memory} (h : m.Pairwise (fun p q => p.1 < q.1))
    (h' : m'.Pairwise (fun p q => p.1 < q.1)) (hr : ∀ a, m.read a = m'.read a) : m = m' := by
  induction m generalizing m' with
  | nil =>
    cases m' with
    | nil => rfl
    | cons e _ => have := hr e.1; simp [Memory.read] at this
  | cons e rest ih =>
    obtain ⟨k, d⟩ := e
    cases m' with
    | nil => have := hr k; simp [Memory.read] at this
    | cons e' rest' =>
      obtain ⟨k', d'⟩ := e'
      obtain ⟨hk, hp⟩ := List.pairwise_cons.1 h
      obtain ⟨hk', hp'⟩ := List.pairwise_cons.1 h'
      have hkk : k = k' := by
        rcases Nat.lt_trichotomy k k' with hlt | heq | hlt
        · have hnone : Memory.read ((k', d') :: rest') k = none :=
            Memory.read_eq_none_of_lt fun c hc => by
              rcases List.mem_cons.1 hc with rfl | hc
              · exact hlt
              · exact Nat.lt_trans hlt (hk' c hc)
          have := hr k
          rw [hnone] at this
          simp [Memory.read] at this
        · exact heq
        · have hnone : Memory.read ((k, d) :: rest) k' = none :=
            Memory.read_eq_none_of_lt fun c hc => by
              rcases List.mem_cons.1 hc with rfl | hc
              · exact hlt
              · exact Nat.lt_trans hlt (hk c hc)
          have := (hr k').symm
          rw [hnone] at this
          simp [Memory.read] at this
      subst k'
      have hd : d = d' := by have := hr k; simpa [Memory.read] using this
      subst d'
      congr 1
      refine ih hp hp' fun a => ?_
      by_cases ha : k = a
      · subst a
        rw [Memory.read_eq_none_of_lt fun c hc => hk c hc, Memory.read_eq_none_of_lt fun c hc => hk' c hc]
      · have := hr a
        simpa [Memory.read, ha] using this

/-! ### Words -/

/-- Writing a word inside the memory keeps the canonical form. -/
theorem Memory.writeWord_wf {size : Nat} {m : Memory} {a : Nat} (v : Word) (h : m.wf size) (ha : a + 3 < size) :
    (m.writeWord a v).wf size :=
  Memory.write_wf _ (Memory.write_wf _ (Memory.write_wf _ (Memory.write_wf _ h (by omega)) (by omega)) (by omega)) ha

/-- What a byte reads as after a word has been written at `a`: byte `a + k` is `v[8k+7:8k]` (R11). -/
theorem Memory.read_writeWord (m : Memory) (a c : Nat) (v : Word) :
    (m.writeWord a v).read c = if a ≤ c ∧ c < a + 4 then some (byteOf v (c - a)) else m.read c := by
  simp only [Memory.writeWord, Memory.read_write]
  by_cases h3 : c = a + 3
  · subst c; simp
  by_cases h2 : c = a + 2
  · subst c; simp
  by_cases h1 : c = a + 1
  · subst c; simp
  by_cases h0 : c = a
  · subst c; simp
  · have : ¬ (a ≤ c ∧ c < a + 4) := by omega
    simp [h0, h1, h2, h3, this]

/-- A word is its four bytes, little-endian (R55). -/
theorem leWord_byteOf (v : Word) : leWord (byteOf v 0) (byteOf v 1) (byteOf v 2) (byteOf v 3) = v := by
  apply BitVec.eq_of_getLsbD_eq
  intro i hi
  simp only [leWord, byteOf, BitVec.getLsbD_or, BitVec.getLsbD_shiftLeft, BitVec.getLsbD_setWidth,
    BitVec.getLsbD_extractLsb', hi]
  interval_cases i <;> simp

theorem byteOf_leWord_zero (b0 b1 b2 b3 : Byte) : byteOf (leWord b0 b1 b2 b3) 0 = b0 := by
  apply BitVec.eq_of_getLsbD_eq
  intro i hi
  simp only [leWord, byteOf, BitVec.getLsbD_or, BitVec.getLsbD_shiftLeft, BitVec.getLsbD_setWidth,
    BitVec.getLsbD_extractLsb', hi]
  interval_cases i <;> simp

theorem byteOf_leWord_one (b0 b1 b2 b3 : Byte) : byteOf (leWord b0 b1 b2 b3) 1 = b1 := by
  apply BitVec.eq_of_getLsbD_eq
  intro i hi
  simp only [leWord, byteOf, BitVec.getLsbD_or, BitVec.getLsbD_shiftLeft, BitVec.getLsbD_setWidth,
    BitVec.getLsbD_extractLsb', hi]
  interval_cases i <;> simp

theorem byteOf_leWord_two (b0 b1 b2 b3 : Byte) : byteOf (leWord b0 b1 b2 b3) 2 = b2 := by
  apply BitVec.eq_of_getLsbD_eq
  intro i hi
  simp only [leWord, byteOf, BitVec.getLsbD_or, BitVec.getLsbD_shiftLeft, BitVec.getLsbD_setWidth,
    BitVec.getLsbD_extractLsb', hi]
  interval_cases i <;> simp

theorem byteOf_leWord_three (b0 b1 b2 b3 : Byte) : byteOf (leWord b0 b1 b2 b3) 3 = b3 := by
  apply BitVec.eq_of_getLsbD_eq
  intro i hi
  simp only [leWord, byteOf, BitVec.getLsbD_or, BitVec.getLsbD_shiftLeft, BitVec.getLsbD_setWidth,
    BitVec.getLsbD_extractLsb', hi]
  interval_cases i <;> simp

/-- Read after write, by words. -/
@[simp] theorem Memory.readWord_writeWord_same (m : Memory) (a : Nat) (v : Word) :
    (m.writeWord a v).readWord a = some v := by
  simp [Memory.readWord, Memory.read_writeWord, leWord_byteOf]

/-- A word that shares no byte with the written one reads as before. -/
theorem Memory.readWord_writeWord_other (m : Memory) {a c : Nat} (v : Word) (h : c + 4 ≤ a ∨ a + 4 ≤ c) :
    (m.writeWord a v).readWord c = m.readWord c := by
  have h0 : ¬ (a ≤ c ∧ c < a + 4) := by omega
  have h1 : ¬ (a ≤ c + 1 ∧ c + 1 < a + 4) := by omega
  have h2 : ¬ (a ≤ c + 2 ∧ c + 2 < a + 4) := by omega
  have h3 : ¬ (a ≤ c + 3 ∧ c + 3 < a + 4) := by omega
  simp only [Memory.readWord, Memory.read_writeWord, if_neg h0, if_neg h1, if_neg h2, if_neg h3]

/-- A word reads exactly when its four bytes do. -/
theorem Memory.readWord_eq_some {m : Memory} {a : Nat} {v : Word} :
    m.readWord a = some v ↔
      ∃ b0 b1 b2 b3, m.read a = some b0 ∧ m.read (a + 1) = some b1 ∧ m.read (a + 2) = some b2 ∧
        m.read (a + 3) = some b3 ∧ v = leWord b0 b1 b2 b3 := by
  simp only [Memory.readWord]
  constructor
  · intro h
    split at h
    · rename_i b0 b1 b2 b3 h0 h1 h2 h3
      exact ⟨b0, b1, b2, b3, h0, h1, h2, h3, by simpa using h.symm⟩
    · simp at h
  · rintro ⟨b0, b1, b2, b3, h0, h1, h2, h3, rfl⟩
    simp [h0, h1, h2, h3]

/-! ### Whole memories -/

@[simp] theorem Memory.map_fst_ofBytes (bs : List Byte) : (Memory.ofBytes bs).map Prod.fst = List.range bs.length := by
  simp [Memory.ofBytes, List.map_fst_zip]

@[simp] theorem Memory.map_snd_ofBytes (bs : List Byte) : (Memory.ofBytes bs).map Prod.snd = bs := by
  simp [Memory.ofBytes, List.map_snd_zip]

theorem Memory.pairwise_ofBytes (bs : List Byte) : (Memory.ofBytes bs).Pairwise (fun p q => p.1 < q.1) := by
  have h : ((Memory.ofBytes bs).map Prod.fst).Pairwise (· < ·) := by
    rw [Memory.map_fst_ofBytes]; exact List.pairwise_lt_range
  exact List.pairwise_map.1 h

/-- A memory built from its bytes is in canonical form. -/
theorem Memory.ofBytes_wf (bs : List Byte) : (Memory.ofBytes bs).wf bs.length := by
  refine ⟨Memory.pairwise_ofBytes bs, fun c hc => ?_⟩
  have : c.1 ∈ (Memory.ofBytes bs).map Prod.fst := List.mem_map_of_mem hc
  simpa using this

theorem Memory.zip_unzip (m : Memory) : (m.map Prod.fst).zip (m.map Prod.snd) = m := by
  induction m with
  | nil => rfl
  | cons e rest ih => simp [ih]

/-- Exactly the memories built from `size` bytes can be consumed whole. -/
theorem Memory.image_eq_some {size : Nat} {m : Memory} {bs : List Byte} :
    m.image size = some bs ↔ bs.length = size ∧ m = Memory.ofBytes bs := by
  unfold Memory.image
  constructor
  · intro h
    split at h
    · rename_i hk
      have hk : m.map Prod.fst = List.range size := by simpa using (Bool.and_eq_true_iff.1 hk).2
      have hb : m.map Prod.snd = bs := by simpa using h
      have hl : bs.length = size := by
        have := congrArg List.length hk
        rw [← hb]; simpa using this
      refine ⟨hl, ?_⟩
      rw [Memory.ofBytes, hl, ← hk, ← hb]
      exact (Memory.zip_unzip m).symm
    · simp at h
  · rintro ⟨rfl, rfl⟩
    have hlen := congrArg List.length (Memory.map_fst_ofBytes bs)
    simp only [List.length_map, List.length_range] at hlen
    simp [hlen]

@[simp] theorem Memory.image_ofBytes (bs : List Byte) :
    (Memory.ofBytes bs).image bs.length = some bs := Memory.image_eq_some.2 ⟨rfl, rfl⟩

/-- A canonical memory can be consumed whole exactly when each of its bytes has been written (I1). -/
theorem Memory.image_isSome_iff {size : Nat} {m : Memory} (h : m.wf size) :
    (m.image size).isSome ↔ ∀ i < size, (m.read i).isSome := by
  constructor
  · intro hs i hi
    obtain ⟨bs, hb⟩ := Option.isSome_iff_exists.1 hs
    obtain ⟨hl, rfl⟩ := Memory.image_eq_some.1 hb
    exact Memory.read_isSome_iff.2 (by simpa [hl] using hi)
  · intro hr
    have hkeys : m.map Prod.fst = List.range size := by
      have hs : (m.map Prod.fst).Pairwise (· < ·) := List.pairwise_map.2 h.1
      have hperm : (m.map Prod.fst).Perm (List.range size) := by
        refine (List.perm_ext_iff_of_nodup (hs.imp fun h => Nat.ne_of_lt h) List.nodup_range).2 fun a => ?_
        constructor
        · intro ha
          obtain ⟨c, hc, rfl⟩ := List.mem_map.1 ha
          exact List.mem_range.2 (h.2 c hc)
        · intro ha
          exact Memory.read_isSome_iff.1 (hr a (List.mem_range.1 ha))
      exact hperm.eq_of_pairwise (fun a b _ _ hab hba => absurd hab (by omega)) hs List.pairwise_lt_range
    have hlen : m.length = size := by simpa using congrArg List.length hkeys
    simp [Memory.image, hkeys, hlen]

/-- Byte `i` of a memory built from its bytes. -/
@[simp] theorem Memory.read_ofBytes (bs : List Byte) (i : Nat) : (Memory.ofBytes bs).read i = bs[i]? := by
  have key : ∀ (bs : List Byte) (k i : Nat),
      Memory.read ((List.range' k bs.length).zip bs) i = if k ≤ i then bs[i - k]? else none := by
    intro bs
    induction bs with
    | nil => intro k i; simp
    | cons b rest ih =>
      intro k i
      simp only [List.length_cons, List.range'_succ, List.zip_cons_cons, Memory.read]
      by_cases hk : k = i
      · subst i; simp
      · rw [if_neg hk, ih]
        by_cases hle : k ≤ i
        · have : i - k = (i - (k + 1)) + 1 := by omega
          rw [if_pos (show k + 1 ≤ i by omega), if_pos hle, this, List.getElem?_cons_succ]
        · rw [if_neg (show ¬ k + 1 ≤ i by omega), if_neg hle]
  have := key bs 0 i
  simpa [Memory.ofBytes, List.range_eq_range'] using this

theorem byteAt_eq_of_getElem? {bs : List Byte} {i : Nat} {b : Byte} (h : bs[i]? = some b) : byteAt bs i = b := by
  simp [byteAt, List.getD, h]

theorem getElem?_eq_byteAt {bs : List Byte} {i : Nat} (h : i < bs.length) : bs[i]? = some (byteAt bs i) := by
  simp [byteAt, List.getD, h]

/-! ### The word view (00_scope.md R11) -/

theorem wordsOf_length : ∀ bs : List Byte, (wordsOf bs).length = bs.length / 4
  | b0 :: b1 :: b2 :: b3 :: rest => by
    simp only [wordsOf, List.length_cons, wordsOf_length rest]; omega
  | [] | [_] | [_, _] | [_, _, _] => by simp [wordsOf]

/-- Word `w` of the word view is bytes `4w .. 4w + 3`, little-endian. -/
theorem wordsOf_getElem? : ∀ (bs : List Byte) (w : Nat), 4 * w + 3 < bs.length →
    (wordsOf bs)[w]? =
      some (leWord (byteAt bs (4 * w)) (byteAt bs (4 * w + 1)) (byteAt bs (4 * w + 2)) (byteAt bs (4 * w + 3)))
  | b0 :: b1 :: b2 :: b3 :: rest, 0, _ => by simp [wordsOf, byteAt]
  | b0 :: b1 :: b2 :: b3 :: rest, w + 1, h => by
    have := wordsOf_getElem? rest w (by simp only [List.length_cons] at h; omega)
    simp only [wordsOf, List.getElem?_cons_succ, this]
    have e : 4 * (w + 1) = 4 * w + 1 + 1 + 1 + 1 := by omega
    simp [byteAt, e]
  | [], _, h => by simp at h
  | [_], _, h => by simp at h
  | [_, _], _, h => by simp at h
  | [_, _, _], _, h => by simp at h

/-- The host's word at a window index is the word view's word (10_state.md R37). -/
theorem Memory.readWord_ofBytes (bs : List Byte) {w : Nat} (h : 4 * w + 3 < bs.length) :
    (Memory.ofBytes bs).readWord (4 * w) = some (wordAt (wordsOf bs) w) := by
  have e := wordsOf_getElem? bs w h
  have hw : wordAt (wordsOf bs) w = leWord (byteAt bs (4 * w)) (byteAt bs (4 * w + 1)) (byteAt bs (4 * w + 2))
      (byteAt bs (4 * w + 3)) := by simp [wordAt, List.getD, e]
  refine Memory.readWord_eq_some.2 ⟨_, _, _, _, ?_, ?_, ?_, ?_, hw⟩ <;>
    rw [Memory.read_ofBytes, getElem?_eq_byteAt (by omega)]

end Sys2Proof.Machine
end

