-- ==== Sys2Proof/Laws/Commands.lean ====
section
/-! SUPPORT. What each command's meaning can do, said once: its operands, its results by index, and its frame. -/

namespace Sys2Proof.Machine

/-! ### Operands -/

theorem State.keySource_eq_some {s : State} {ks : List Byte} :
    s.keySource = some ks ↔ ks.length = Config.ksrcSize ∧ s.ksrc = Memory.ofBytes ks := Memory.image_eq_some

theorem State.keyTableWords_eq_some {s : State} {ws : List Word} :
    s.keyTableWords = some ws ↔
      ∃ bs, bs.length = Config.ktabSize ∧ s.ktab = Memory.ofBytes bs ∧ ws = wordsOf bs := by
  simp only [State.keyTableWords, Option.map_eq_some_iff, Memory.image_eq_some, and_assoc]
  constructor <;> rintro ⟨bs, hl, hm, hw⟩ <;> exact ⟨bs, hl, hm, hw.symm⟩

/-- The key source can be consumed exactly when all of it has been written (93_implementation_defined.md I1). -/
theorem State.keySource_isSome_iff {s : State} (h : s.Inv) : s.keySource.isSome ↔ s.KeySourceWritten :=
  Memory.image_isSome_iff h.ksrc_wf

/-- The key table can be consumed exactly when all of it has been written (I1). -/
theorem State.keyTableWords_isSome_iff {s : State} (h : s.Inv) : s.keyTableWords.isSome ↔ s.KeyTableWritten := by
  rw [State.keyTableWords, Option.isSome_map]
  exact Memory.image_isSome_iff h.ktab_wf

/-- Word `w` of the cipher's table is the host's word at KTAB offset `4w` (10_state.md R37). -/
theorem State.readWord_ktab {s : State} {ws : List Word} (h : s.keyTableWords = some ws) {w : Nat}
    (hw : w < Config.ktabWords) : s.ktab.readWord (4 * w) = some (wordAt ws w) := by
  obtain ⟨bs, hl, hm, rfl⟩ := State.keyTableWords_eq_some.1 h
  rw [hm]
  refine Memory.readWord_ofBytes bs ?_
  rw [hl]
  simp only [Config.ktabWords, Config.ktabSize] at *
  omega

/-! ### The key table -/

/-- "`idx` lies in 0..0xFFF for every `x` and every key-source content" (41_keytable.md R126). -/
theorem headerIndex_lt (ks : List Byte) (x : Nat) : headerIndex ks x < Config.ksrcSize := by
  have := (byteAt ks x).isLt
  unfold headerIndex
  simp only [Config.ksrcSize]
  omega

@[simp] theorem headerSegment_length (ks : List Byte) : (headerSegment ks).length = Config.headerSize := by
  simp [headerSegment]

@[simp] theorem keyTable_length (ks : List Byte) : (keyTable ks).length = Config.headerSize + ks.length := by
  simp [keyTable]

/-- Header byte `x` of the key table is key-source byte `idx` (R122). -/
theorem keyTable_header {ks : List Byte} (hl : ks.length = Config.ksrcSize) {x : Nat} (hx : x < Config.headerSize) :
    (keyTable ks)[x]? = ks[headerIndex ks x]? := by
  have hi : headerIndex ks x < ks.length := hl ▸ headerIndex_lt ks x
  have hx' : x < (headerSegment ks).length := by simpa using hx
  rw [keyTable, List.getElem?_append_left hx', getElem?_eq_byteAt hi]
  simp [headerSegment, List.getElem?_map, List.getElem?_range hx]

/-- Body byte `i` of the key table is key-source byte `i` (R123). -/
theorem keyTable_body (ks : List Byte) (i : Nat) : (keyTable ks)[Config.headerSize + i]? = ks[i]? := by
  rw [keyTable, List.getElem?_append_right (by simp)]
  simp

/-- The three things `KT_BUILD` can do. -/
theorem execKtBuild_cases (s : State) :
    (s.ksrcLen ≠ 0x1000 ∧ execKtBuild s = .next (s.complete .invalidInputSize)) ∨
    (s.ksrcLen = 0x1000 ∧ s.keySource = none ∧ execKtBuild s = .fault .ktBuildUnwritten) ∨
    (s.ksrcLen = 0x1000 ∧ ∃ ks, s.keySource = some ks ∧
      execKtBuild s = .next ({ s with ktab := Memory.ofBytes (keyTable ks) }.complete .none)) := by
  unfold execKtBuild
  by_cases hl : s.ksrcLen = 0x1000
  · cases hk : s.keySource with
    | none => exact .inr (.inl ⟨hl, rfl, if_neg (not_not.2 hl)⟩)
    | some ks => exact .inr (.inr ⟨hl, ks, rfl, if_neg (not_not.2 hl)⟩)
  · exact .inl ⟨hl, if_pos hl⟩

/-! ### The cipher -/

/-- The round function reads the table below 1042 only (42_cipher.md R147). -/
theorem roundF_congr {T T' : Nat → Word} (h : ∀ w < Config.ktabWords, T w = T' w) (z : Word) :
    roundF T z = roundF T' z := by
  have h0 := (byteOf z 0).isLt
  have h1 := (byteOf z 1).isLt
  have h2 := (byteOf z 2).isLt
  have h3 := (byteOf z 3).isLt
  simp only [Config.ktabWords] at h
  unfold roundF
  rw [h _ (by omega), h _ (by omega), h _ (by omega), h _ (by omega)]

/-- The two things a cipher command can do. -/
theorem applyCipher_cases (f : (Nat → Word) → Word × Word → Word × Word) (s : State) :
    (s.keyTableWords = none ∧ applyCipher f s = .fault .cipherUnwritten) ∨
    (∃ ws, s.keyTableWords = some ws ∧
      applyCipher f s = .next ({ s with data0 := (f (wordAt ws) (s.data0, s.data1)).1,
                                        data1 := (f (wordAt ws) (s.data0, s.data1)).2 }.complete .none)) := by
  unfold applyCipher
  cases h : s.keyTableWords with
  | none => exact .inl ⟨rfl, rfl⟩
  | some ws => exact .inr ⟨ws, rfl, rfl⟩

/-! ### All commands -/

/-- The code a legal command ends with (60_exceptions.md R171). -/
def completionCode (i : Instr) (s : State) : ErrorCode :=
  if i = .ktBuild ∧ s.ksrcLen ≠ 0x1000 then .invalidInputSize else .none

/-- What every command that goes on has done: its own registers may have changed, STATUS is completed, and everything
else is as before. -/
theorem exec_next {i : Instr} {s t : State} (h : exec i s = .next t) :
    ∃ c k d0 d1, t = { s with crc := c, ktab := k, data0 := d0, data1 := d1 }.complete (completionCode i s) ∧
      (c ≠ s.crc → i = .crcInit ∨ ∃ b, i = .crcUpdate b) ∧
      (k ≠ s.ktab → i = .ktBuild ∧ s.ksrcLen = 0x1000 ∧ ∃ ks, s.keySource = some ks ∧ k = Memory.ofBytes (keyTable ks)) ∧
      ((d0 ≠ s.data0 ∨ d1 ≠ s.data1) → i = .cipherFwd ∨ i = .cipherRev) := by
  cases i with
  | crcInit =>
    cases h
    exact ⟨crcInitial, s.ktab, s.data0, s.data1, by simp [completionCode], by simp⟩
  | crcUpdate b =>
    cases h
    exact ⟨crcStep s.crc b, s.ktab, s.data0, s.data1, by simp [completionCode], by simp⟩
  | ktBuild =>
    rcases execKtBuild_cases s with ⟨hl, he⟩ | ⟨hl, _, he⟩ | ⟨hl, ks, hk, he⟩
    · rw [show exec .ktBuild s = execKtBuild s from rfl, he] at h
      cases h
      exact ⟨s.crc, s.ktab, s.data0, s.data1, by rw [completionCode, if_pos ⟨rfl, hl⟩], by simp⟩
    · rw [show exec .ktBuild s = execKtBuild s from rfl, he] at h
      cases h
    · rw [show exec .ktBuild s = execKtBuild s from rfl, he] at h
      cases h
      exact ⟨s.crc, _, s.data0, s.data1, by simp [completionCode, hl], by simp,
        fun _ => ⟨rfl, hl, ks, hk, rfl⟩, by simp⟩
  | cipherFwd =>
    rcases applyCipher_cases encipher s with ⟨_, he⟩ | ⟨ws, _, he⟩
    · rw [show exec .cipherFwd s = applyCipher encipher s from rfl, he] at h
      cases h
    · rw [show exec .cipherFwd s = applyCipher encipher s from rfl, he] at h
      cases h
      exact ⟨s.crc, s.ktab, _, _, by simp [completionCode]; rfl, by simp⟩
  | cipherRev =>
    rcases applyCipher_cases decipher s with ⟨_, he⟩ | ⟨ws, _, he⟩
    · rw [show exec .cipherRev s = applyCipher decipher s from rfl, he] at h
      cases h
    · rw [show exec .cipherRev s = applyCipher decipher s from rfl, he] at h
      cases h
      exact ⟨s.crc, s.ktab, _, _, by simp [completionCode]; rfl, by simp⟩

/-- No command is refused: every one has its meaning. -/
theorem exec_ne_refused (i : Instr) (s : State) (r : Refusal) : exec i s ≠ .refused r := by
  cases i with
  | crcInit => exact fun h => nomatch h
  | crcUpdate b => exact fun h => nomatch h
  | ktBuild =>
    rcases execKtBuild_cases s with ⟨_, he⟩ | ⟨_, _, he⟩ | ⟨_, _, _, he⟩ <;>
      simp [show exec .ktBuild s = execKtBuild s from rfl, he]
  | cipherFwd =>
    rcases applyCipher_cases encipher s with ⟨_, he⟩ | ⟨_, _, he⟩ <;>
      simp [show exec .cipherFwd s = applyCipher encipher s from rfl, he]
  | cipherRev =>
    rcases applyCipher_cases decipher s with ⟨_, he⟩ | ⟨_, _, he⟩ <;>
      simp [show exec .cipherRev s = applyCipher decipher s from rfl, he]

end Sys2Proof.Machine
end

