-- ==== Sys2Proof/Laws/Encoding.lean ====
section
/-! SUPPORT. The command word's fields, and what the decoder does in each case of the opcode map, said once. -/

namespace Sys2Proof

@[simp] theorem cmdOp_cmdWord (op arg : Byte) : cmdOp (cmdWord op arg) = op := by
  apply BitVec.eq_of_getLsbD_eq
  intro i hi
  simp only [cmdOp, cmdWord, BitVec.getLsbD_extractLsb', BitVec.getLsbD_or, BitVec.getLsbD_shiftLeft,
    BitVec.getLsbD_setWidth, hi]
  interval_cases i <;> simp

@[simp] theorem cmdArg_cmdWord (op arg : Byte) : cmdArg (cmdWord op arg) = arg := by
  apply BitVec.eq_of_getLsbD_eq
  intro i hi
  simp only [cmdArg, cmdWord, BitVec.getLsbD_extractLsb', BitVec.getLsbD_or, BitVec.getLsbD_shiftLeft,
    BitVec.getLsbD_setWidth, hi]
  interval_cases i <;> simp

@[simp] theorem cmdRsvd_cmdWord (op arg : Byte) : cmdRsvd (cmdWord op arg) = 0 := by
  apply BitVec.eq_of_getLsbD_eq
  intro i hi
  simp only [cmdRsvd, cmdWord, BitVec.getLsbD_extractLsb', BitVec.getLsbD_or, BitVec.getLsbD_shiftLeft,
    BitVec.getLsbD_setWidth, hi]
  interval_cases i <;> simp

/-- A word is its three fields: one whose `RSVD` is 0 is laid out from its `OP` and `ARG` (30_encoding.md R80). -/
theorem cmdWord_of_fields {w : Word} (h : cmdRsvd w = 0) : cmdWord (cmdOp w) (cmdArg w) = w := by
  apply BitVec.eq_of_getLsbD_eq
  intro i hi
  have hr : ∀ j < 16, w.getLsbD (16 + j) = false := fun j hj => by
    have := congrArg (fun v => v.getLsbD j) h
    simpa [cmdRsvd, BitVec.getLsbD_extractLsb', hj] using this
  simp only [cmdOp, cmdArg, cmdWord, BitVec.getLsbD_or, BitVec.getLsbD_shiftLeft, BitVec.getLsbD_setWidth,
    BitVec.getLsbD_extractLsb', hi]
  by_cases h16 : 16 ≤ i
  · have := hr (i - 16) (by omega)
    rw [show 16 + (i - 16) = i by omega] at this
    rw [this]
    have h8 : ¬ i < 8 := by omega
    have h8' : ¬ i - 8 < 8 := by omega
    simp [h8, h8']
  · interval_cases i <;> simp

theorem withoutArg_eq_ok {arg : Byte} {i j : Instr} : withoutArg arg i = .ok j ↔ arg = 0 ∧ i = j := by
  unfold withoutArg
  split <;> simp_all

/-- The whole of what the decoder accepts: `RSVD` is 0, and `OP` with `ARG` is a row of the opcode map (R84). -/
theorem decode_eq_ok {w : Word} {i : Instr} :
    decode w = .ok i ↔ cmdRsvd w = 0 ∧
      ((cmdOp w = 0x01 ∧ cmdArg w = 0 ∧ i = .crcInit) ∨ (cmdOp w = 0x02 ∧ i = .crcUpdate (cmdArg w)) ∨
        (cmdOp w = 0x10 ∧ cmdArg w = 0 ∧ i = .ktBuild) ∨ (cmdOp w = 0x20 ∧ cmdArg w = 0 ∧ i = .cipherFwd) ∨
        (cmdOp w = 0x21 ∧ cmdArg w = 0 ∧ i = .cipherRev)) := by
  unfold decode
  constructor
  · intro h
    split at h
    · simp at h
    · rename_i hr
      refine ⟨by simpa using hr, ?_⟩
      repeat' split at h
      all_goals simp_all [withoutArg_eq_ok]
  · rintro ⟨hr, ⟨ho, ha, rfl⟩ | ⟨ho, rfl⟩ | ⟨ho, ha, rfl⟩ | ⟨ho, ha, rfl⟩ | ⟨ho, ha, rfl⟩⟩ <;> simp [*, withoutArg]

/-- A decoded command's word tells nothing but its fields, so a command has one word only (R84). -/
theorem word_of_decode {w : Word} {i : Instr} (h : decode w = .ok i) : w = cmdWord (cmdOp w) (cmdArg w) :=
  (cmdWord_of_fields (decode_eq_ok.1 h).1).symm

end Sys2Proof
end

