-- ==== Sys2Proof/Laws/PerInstr.lean ====
section
/-! SUPPORT. Statements for every instruction, one lemma per constructor. -/

namespace Sys2Proof.Laws.EncodesToLegalWord

/-- The word of a well-formed command is a legal one (30_encoding.md R83, R84). -/
def Statement (i : Instr) : Prop := i.wellFormed = true → legalWord (encode i) = true

theorem crcInit : Statement .crcInit := fun _ => by decide

theorem crcUpdate (b : Byte) : Statement (.crcUpdate b) := fun _ => by
  simp [legalWord, reservedIsZero, opIsAssigned, argIsZeroUnlessUpdate, encode]

theorem ktBuild : Statement .ktBuild := fun _ => by decide

theorem cipherFwd : Statement .cipherFwd := fun _ => by decide

theorem cipherRev : Statement .cipherRev := fun _ => by decide

end Sys2Proof.Laws.EncodesToLegalWord
end

