-- ==== Sys2Proof/Laws/Transactions.lean ====
section
/-! SUPPORT. What a transaction and a step can do, said once. -/

namespace Sys2Proof.Machine

/-! ### Runs -/

@[simp] theorem core_run_zero (s : State) : core.run 0 s = .next s := rfl

/-- A run goes on from where its first step goes on. -/
theorem core_run_succ {k : Nat} {s t : State} (h : step s = .next t) : core.run (k + 1) s = core.run k t := by
  have h' : core.step s = .next t := h
  simp only [Host.Core.run, h']

/-- A run that goes on has a first step that goes on. -/
theorem core_run_succ_eq_next {k : Nat} {s u : State} :
    core.run (k + 1) s = .next u ↔ ∃ t, step s = .next t ∧ core.run k t = .next u := by
  have h' : core.step s = step s := rfl
  simp only [Host.Core.run, h']
  cases step s <;> simp

/-! ### The step -/

theorem step_of_pending {s : State} {e : Event} {rest : List Event} (h : s.pending = e :: rest) :
    step s = performEvent e { s with pending := rest } := by
  simp [step, nextEvent, h]

theorem step_of_idle {s : State} (h : s.pending = []) : step s = .next s := by
  simp [step, nextEvent, h]

/-! ### Offset decode -/

/-- What the bus accepts, and as what (20_memory.md R52–R54). -/
theorem busTarget_eq_some {off : Offset} {size : Nat} {t : Target} :
    busTarget off size = some t ↔ size = 4 ∧ off.toNat % 4 = 0 ∧ offsetTarget off.toNat = some t := by
  unfold busTarget
  split
  · simp_all
  · split <;> simp_all

/-- The windows' indices: a KSRC word lies inside `KSRC`, a KTAB word inside `KTAB` (R54). -/
theorem offsetTarget_window {off : Nat} {t : Target} (h : offsetTarget off = some t) :
    (∀ k, t = .ksrc k → off = 0x1000 + k ∧ k + 3 < Config.ksrcSize) ∧
      (∀ k, t = .ktab k → off = 0x2000 + k ∧ k + 3 < Config.ktabSize) := by
  unfold offsetTarget at h
  repeat' split at h
  all_goals simp at h
  all_goals subst h
  all_goals constructor <;> intro k hk <;> simp at hk
  all_goals subst hk
  all_goals simp only [Config.ksrcSize, Config.ktabSize]
  all_goals omega

/-! ### Reads -/

/-- A read that goes on changes nothing but the record of responses (R57). -/
theorem hostRead_next {off : Offset} {size : Nat} {s t : State} (h : hostRead off size s = .next t) :
    ∃ r, t = s.respond r := by
  unfold hostRead at h
  split at h
  · exact ⟨_, by cases h; rfl⟩
  · split at h
    · cases h
    · exact ⟨_, by cases h; rfl⟩

/-- A read refuses nothing, and stops only on an unwritten byte of a window (93_implementation_defined.md I1). -/
theorem readTarget_error {s : State} {t : Target} {stop : Fault} (h : readTarget s t = .error stop) :
    (∃ k, t = .ksrc k ∧ s.ksrc.readWord k = none ∧ stop = .ksrcReadUnwritten) ∨
      (∃ k, t = .ktab k ∧ s.ktab.readWord k = none ∧ stop = .ktabReadUnwritten) := by
  cases t <;> simp only [readTarget, reduceCtorEq] at h
  · rename_i k
    unfold readWindow at h
    split at h
    · cases h
    · cases h; exact .inl ⟨k, rfl, by assumption, rfl⟩
  · rename_i k
    unfold readWindow at h
    split at h
    · cases h
    · cases h; exact .inr ⟨k, rfl, by assumption, rfl⟩

/-! ### Executing a word -/

/-- What executing a word does: the decoded command, or the illegal-command error (30_encoding.md R85). -/
theorem execute_cases (w : Word) (s : State) :
    (∃ i, decode w = .ok i ∧ execute w s = exec i s) ∨
      (∃ e, decode w = .error e ∧ execute w s = .next (s.complete .illegalCommand)) := by
  unfold execute
  cases h : decode w with
  | ok i => exact .inl ⟨i, rfl, rfl⟩
  | error e => exact .inr ⟨e, rfl, rfl⟩

/-! ### Writes and steps, inverted -/

/-- What a write of each target goes on to (R60). -/
theorem writeTarget_next {data : Word} {s u : State} {tgt : Target} (h : writeTarget data s tgt = .next u) :
    (tgt = .cmd ∧ execute data s = .next u) ∨
    (tgt = .status ∧ u = s.writeStatus data) ∨
    (tgt = .crcValue ∧ u = s) ∨
    (tgt = .ksrcLen ∧ u = { s with ksrcLen := data.setWidth 16 }) ∨
    (tgt = .data0 ∧ u = { s with data0 := data }) ∨
    (tgt = .data1 ∧ u = { s with data1 := data }) ∨
    (∃ k, tgt = .ksrc k ∧ u = { s with ksrc := s.ksrc.writeWord k data }) ∨
    (∃ k, tgt = .ktab k ∧ u = { s with ktab := s.ktab.writeWord k data }) := by
  cases tgt with
  | cmd => exact .inl ⟨rfl, h⟩
  | _ => cases h; simp

/-- Every way a step goes on: idling, the reset event, a read, a refused write, an accepted write. -/
theorem step_next {s t : State} (h : step s = .next t) :
    (s.pending = [] ∧ t = s) ∨
    (∃ rest, s.pending = .reset :: rest ∧ t = { s with pending := rest }.resetEvent) ∨
    (∃ off size rest r, s.pending = .txn ⟨off, .read size⟩ :: rest ∧ t = { s with pending := rest }.respond r) ∨
    (∃ off size data rest, s.pending = .txn ⟨off, .write size data⟩ :: rest ∧ busTarget off size = none ∧
      t = { s with pending := rest }.respond .busError) ∨
    (∃ off data rest tgt u, s.pending = .txn ⟨off, .write 4 data⟩ :: rest ∧ busTarget off 4 = some tgt ∧
      writeTarget data { s with pending := rest } tgt = .next u ∧ t = u.respond .ok) := by
  cases hp : s.pending with
  | nil => rw [step_of_idle hp] at h; cases h; exact .inl ⟨rfl, rfl⟩
  | cons e rest =>
    rw [step_of_pending hp] at h
    cases e with
    | reset => cases h; exact .inr (.inl ⟨rest, rfl, rfl⟩)
    | txn tx =>
      obtain ⟨off, a⟩ := tx
      cases a with
      | read size =>
        obtain ⟨r, hr⟩ := hostRead_next (show hostRead off size _ = .next t from h)
        exact .inr (.inr (.inl ⟨off, size, rest, r, rfl, hr⟩))
      | write size data =>
        have h : hostWrite off size data { s with pending := rest } = .next t := h
        unfold hostWrite at h
        cases hb : busTarget off size with
        | none =>
          rw [hb] at h
          cases h
          exact .inr (.inr (.inr (.inl ⟨off, size, data, rest, rfl, hb, rfl⟩)))
        | some tgt =>
          rw [hb] at h
          obtain ⟨u, hu, ht⟩ := answerOk_eq_next.1 h
          have hs := (busTarget_eq_some.1 hb).1
          subst hs
          exact .inr (.inr (.inr (.inr ⟨off, data, rest, tgt, u, rfl, hb, hu, ht⟩)))

end Sys2Proof.Machine
end

