-- ==== Sys2Proof/Tests/Slice0.lean ====
section
/-! SUPPORT. The model's own tests: expected results from the spec's vectors (95_test_vectors.md), the smoke tests of the
well-formedness checks, and for each statement with hypotheses a witness that meets them. -/

namespace Sys2Proof.Tests

open Sys2Proof Sys2Proof.Machine

/-! ### Well-formedness: one ill-formed term for each check -/

theorem test_ill_formed_reserved : reservedIsZero 0x00010002 = false := by decide

theorem test_ill_formed_op : opIsAssigned 0x00000022 = false := by decide

theorem test_ill_formed_arg : argIsZeroUnlessUpdate 0x00001010 = false := by decide

theorem test_legal_words_pass : [0x00000001, 0x0000FF02, 0x00000010, 0x00000020, 0x00000021].all legalWord = true := by
  decide

theorem test_ill_formed_targets :
    (Target.ksrc 0x1000).wellFormed = false ∧ (Target.ksrc 2).wellFormed = false ∧
      (Target.ktab 0x1048).wellFormed = false ∧ (Target.ktab 1).wellFormed = false ∧
      (HostTarget.raw 0x4000).wellFormed = false ∧
      (HostLine.wr (.named (.ksrc 0x1000)) 0).wellFormed = false ∧
      (HostLine.rd (.raw 0x4000) none).wellFormed = false := by decide

theorem test_ill_formed_loads :
    (Pseudo.ksrcLoad [0]).wellFormed = false ∧ (Pseudo.ktabLoad [0]).wellFormed = false := by decide

/-! ### Decoding: words written out bit by bit from 30_encoding.md R80 (RSVD | ARG | OP) and the table's `encoding` -/

theorem test_decode_crc_init : decode 0b0000000000000000_00000000_00000001 = .ok .crcInit := by decide

theorem test_decode_crc_update :
    decode 0b0000000000000000_10100101_00000010 = .ok (.crcUpdate 0b10100101) := by decide

theorem test_decode_kt_build : decode 0b0000000000000000_00000000_00010000 = .ok .ktBuild := by decide

theorem test_decode_cipher_fwd : decode 0b0000000000000000_00000000_00100000 = .ok .cipherFwd := by decide

theorem test_decode_cipher_rev : decode 0b0000000000000000_00000000_00100001 = .ok .cipherRev := by decide

/-- The illegal words of 95_test_vectors.md §5. -/
theorem test_decode_illegal :
    [0x00000000, 0x00000003, 0x00000022, 0x000000FF, 0x00000101, 0x00001010, 0x00010002, 0x80000020].all
      (fun w => (decode w).toOption.isNone) = true := by decide

theorem test_decode_table_word :
    decodeTableWord 32 0x0000FF02 = some (.crcUpdate 0xFF) ∧ decodeTableWord 32 0x80000020 = none := by decide

/-- V-CRC-4's command after reset, placed where the next step takes it. -/
theorem test_fetch_word_runs :
    (nextOf (step (State.reset.withFetchWord 32 0x00000102))).map (·.crc) = some 0x807E := by decide

/-! ### The CRC generator -/

/-- V-CRC-2, V-CRC-3, V-CRC-5. -/
theorem test_crc_step : crcStep 0xFFFF 0x00 = 0x40BF ∧ crcStep 0xFFFF 0xFF = 0x00FF ∧ crcStep 0xFFFF 0x80 = 0xE0BE := by
  decide

/-- V-CRC-13: an update without `CRC_INIT` goes on from 0x4B37. -/
theorem test_crc_update_continues :
    (nextOf (exec (.crcUpdate 0x41) { State.reset with crc := 0x4B37 })).map (·.crc) = some 0xE6CA := by decide

/-- R104's example, with STATUS as in the last row of 95_test_vectors.md §6. -/
theorem test_crc_init :
    (nextOf (exec .crcInit { State.reset with crc := 0x4B37, lastErr := 2, errSticky := true })).map
      (fun t => (t.crc, statusWord t.errSticky t.lastErr)) = some (0xFFFF, 0x00000100) := by decide

/-! ### The key-table engine -/

/-- KS_PAT of 95_test_vectors.md §3. -/
def patByte (i : Nat) : Byte := BitVec.ofNat 8 (167 * i + 13 * (i / 0x100) + 0x5A)

def patSource : List Byte := (List.range 0x1000).map patByte

/-- V-KT-4: header bytes 0x00, 0x0F, 0x11 and 0x47. -/
theorem test_header_of_pattern :
    [0x00, 0x0F, 0x11, 0x47].map (fun x => byteAt (headerSegment patSource) x) = [0x10, 0xF2, 0x1E, 0x42] := by
  decide +kernel

/-- V-KT-5: a selection, not a permutation. -/
theorem test_header_selects :
    ([0x00, 0x10, 0x20, 0x05].map (fun x => byteAt (headerSegment
      ((List.range 0x1000).map (fun i => if i = 0 ∨ i = 0x10 then 0x05 else if i = 5 then 0x77 else 0))) x))
      = [0x77, 0x77, 0x05, 0x00] := by decide +kernel

/-- V-KT-6 and V-KT-7: 4095 and 4097 are refused, `KTAB` keeps its content, STATUS reads 0x00000101. -/
theorem test_kt_build_boundary :
    ([0x0FFF, 0x1001].map (fun n =>
      (nextOf (exec .ktBuild { State.reset with ksrcLen := n, ktab := [(7, 0xAA)] })).map
        (fun t => (statusWord t.errSticky t.lastErr, t.ktab))))
      = [some (0x00000101, [(7, 0xAA)]), some (0x00000101, [(7, 0xAA)])] := by decide

/-- I1: a build that passes its size check with an unwritten source stops. -/
theorem test_kt_build_unwritten : exec .ktBuild { State.reset with ksrcLen := 0x1000 } = .fault .ktBuildUnwritten := rfl

/-! ### The cipher -/

/-- T_P of 95_test_vectors.md §4. -/
def tableP (w : Nat) : Word := if w < 0x12 then BitVec.ofNat 32 (w + 1) else 0

/-- T_SID of 95_test_vectors.md §4, on which `F(z) = z`. -/
def tableSid (w : Nat) : Word :=
  if w < 0x012 then 0
  else if w < 0x112 then BitVec.ofNat 32 ((w - 0x012) * 0x1000000)
  else if w < 0x212 then BitVec.ofNat 32 ((w - 0x112) * 0x10000)
  else if w < 0x312 then BitVec.ofNat 32 ((w - 0x212) * 0x100)
  else BitVec.ofNat 32 (w - 0x312)

/-- T_PAT of 95_test_vectors.md §4, byte by byte from R122 and R123. -/
def patTableByte (a : Nat) : Byte :=
  if a < 0x48 then patByte (0x100 * (a % 16) + (patByte a).toNat) else patByte (a - 0x48)

def tablePat (w : Nat) : Word :=
  leWord (patTableByte (4 * w)) (patTableByte (4 * w + 1)) (patTableByte (4 * w + 2)) (patTableByte (4 * w + 3))

/-- The byte order of the lookups: `F(0x12345678) = 0x12345678` under T_SID. -/
theorem test_round_function_byte_order : roundF tableSid 0x12345678 = 0x12345678 := by decide

/-- `F` under T_PAT (95_test_vectors.md §4). -/
theorem test_round_function_pattern :
    roundF tablePat 0x01020304 = 0x89714390 ∧ roundF tablePat 0x80000000 = 0x45D2D6B6 := by decide +kernel

/-- V-CI-4 and V-CI-5, both directions. -/
theorem test_cipher_round_keys :
    encipher tableP (0, 0) = (0x00000011, 0x00000002) ∧
      decipher tableP (0x01234567, 0x89ABCDEF) = (0x89ABCDED, 0x01234576) := by decide +kernel

/-- V-CI-14, both directions. -/
theorem test_cipher_pattern :
    encipher tablePat (0x01234567, 0x89ABCDEF) = (0xE97E484C, 0xFE539039) ∧
      decipher tablePat (0x01234567, 0x89ABCDEF) = (0x73B5F3B2, 0x2AEF967D) := by decide +kernel

/-- I1: a cipher command on an unwritten table stops. -/
theorem test_cipher_unwritten :
    exec .cipherFwd State.reset = .fault .cipherUnwritten ∧ exec .cipherRev State.reset = .fault .cipherUnwritten :=
  ⟨rfl, rfl⟩

/-! ### The bus: rows of 95_test_vectors.md §6, each one step -/

/-- The response to one transaction from a state, if the step goes on. -/
def answer (e : Event) (s : State) : Option Response :=
  ((nextOf (step { s with pending := [e], responses := [] })).bind (·.responses.head?))

theorem test_bus_errors :
    answer (.txn ⟨0x0002, .read 4⟩) State.reset = some .busError ∧
      answer (.txn ⟨0x0008, .read 2⟩) State.reset = some .busError ∧
      answer (.txn ⟨0x0000, .write 1 0x01⟩) State.reset = some .busError ∧
      answer (.rd 0x0018) State.reset = some .busError ∧
      answer (.wr 0x3048 0) State.reset = some .busError := by decide

theorem test_register_reads :
    answer (.rd 0x0000) State.reset = some (.data 0) ∧
      answer (.rd 0x0004) { State.reset with lastErr := 2, errSticky := true } = some (.data 0x00000102) ∧
      answer (.rd 0x0008) State.reset = some (.data 0x0000FFFF) ∧
      answer (.rd 0x000C) { State.reset with ksrcLen := 0x1000 } = some (.data 0x00001000) ∧
      answer (.rd 0x0010) { State.reset with data0 := 0xE97E484C } = some (.data 0xE97E484C) ∧
      answer (.rd 0x0014) { State.reset with data1 := 0xFE539039 } = some (.data 0xFE539039) := by decide

theorem test_status_write :
    (nextOf (step { State.reset with lastErr := 1, errSticky := true, pending := [.wr 0x0004 0x000000FF] })).map
        (fun t => statusWord t.errSticky t.lastErr) = some 0x00000101 ∧
      (nextOf (step { State.reset with lastErr := 1, errSticky := true, pending := [.wr 0x0004 0x00000100] })).map
        (fun t => statusWord t.errSticky t.lastErr) = some 0x00000001 := by decide

theorem test_ksrc_len_write :
    (nextOf (step { State.reset with pending := [.wr 0x000C 0xABCD1000] })).map (·.ksrcLen) = some 0x1000 := by decide

theorem test_crc_value_is_read_only :
    (nextOf (step { State.reset with pending := [.wr 0x0008 0x1234] })).map (·.block) = some State.reset := by decide

theorem test_ksrc_window_write :
    (nextOf (step { State.reset with pending := [.wr 0x1004 0x44332211] })).map (·.ksrc)
      = some [(4, 0x11), (5, 0x22), (6, 0x33), (7, 0x44)] := by decide

/-- The last word of the KTAB window is its word 0x411 (V-KT-4). -/
theorem test_ktab_window_read :
    answer (.rd 0x3044) { State.reset with ktab := [(0x1044, 0x81), (0x1045, 0x28), (0x1046, 0xCF), (0x1047, 0x76)] }
      = some (.data 0x76CF2881) := by decide

theorem test_illegal_command :
    (nextOf (step { State.reset with pending := [.command 0x00000003] })).map
      (fun t => (t.block, t.responses)) = some ({ State.reset with lastErr := 2, errSticky := true }, [.ok]) := by decide

theorem test_reset_event :
    (nextOf (step { State.reset with crc := 1, ksrc := [(0, 1)], data0 := 5, lastErr := 2, pending := [.reset] }))
      = some State.reset := by decide

theorem test_pseudo_expansions :
    (Pseudo.blockSet 1 2).events = [.wr 0x0010 1, .wr 0x0014 2] ∧
      (Pseudo.crcBytes [0x31]).events = [.wr 0x0000 0x00003102] ∧
      Pseudo.statusClear.events = [.wr 0x0004 0x00000100] ∧
      (Pseudo.ktabLoad []).events.length = 1042 := by decide +kernel

/-! ### Witnesses: states and operands that meet each statement's hypotheses -/

/-- KS_ID of 95_test_vectors.md §3. -/
@[irreducible] def idSource : List Byte := (List.range 0x1000).map (BitVec.ofNat 8)

/-- The bytes of T_ZERO (95_test_vectors.md §4). -/
@[irreducible] def zeroTable : List Byte := List.replicate 0x1048 0

theorem idSource_length : idSource.length = 0x1000 := by
  unfold idSource
  exact (List.length_map _).trans List.length_range

theorem zeroTable_length : zeroTable.length = 0x1048 := by rw [zeroTable, List.length_replicate]

/-- A state with both memories wholly written: `KSRC` holds KS_ID, `KTAB` zeros. -/
def loaded : State := { State.reset with
  ksrc := Memory.ofBytes idSource, ksrcLen := 0x1000, ktab := Memory.ofBytes zeroTable, data0 := 1 }

theorem loaded_inv : loaded.Inv where
  ksrc_wf := by have := Memory.ofBytes_wf idSource; rwa [idSource_length] at this
  ktab_wf := by have := Memory.ofBytes_wf zeroTable; rwa [zeroTable_length] at this
  lastErr_le := by decide

theorem loaded_source : loaded.KeySourceWritten := fun i hi => by
  rw [show loaded.ksrc = Memory.ofBytes idSource from rfl, Memory.read_ofBytes,
    getElem?_eq_byteAt (by rw [idSource_length]; exact hi)]
  rfl

theorem loaded_table : loaded.KeyTableWritten := fun i hi => by
  rw [show loaded.ktab = Memory.ofBytes zeroTable from rfl, Memory.read_ofBytes,
    getElem?_eq_byteAt (by rw [zeroTable_length]; exact hi)]
  rfl

theorem loaded_word (w : Nat) (hw : w < 1042) : loaded.ktab.readWord (4 * w) = some 0 := by
  have hr : ∀ i < 0x1048, loaded.ktab.read i = some 0 := fun i hi => by
    rw [show loaded.ktab = Memory.ofBytes zeroTable from rfl, Memory.read_ofBytes, zeroTable,
      List.getElem?_replicate, if_pos hi]
  refine Memory.readWord_eq_some.2 ⟨0, 0, 0, 0, hr _ ?_, hr _ ?_, hr _ ?_, hr _ ?_, by decide⟩ <;> omega

/-- The loaded block builds its key table and goes on. -/
theorem loaded_build : ∃ t, exec .ktBuild loaded = .next t := by
  rcases execKtBuild_cases loaded with ⟨h, _⟩ | ⟨_, h, _⟩ | ⟨_, _, _, he⟩
  · exact absurd rfl h
  · have := (State.keySource_isSome_iff loaded_inv).2 loaded_source
    rw [h] at this
    cases this
  · exact ⟨_, he⟩

theorem witness_DecodeInvertsEncode : (Instr.crcUpdate 0xFF).wellFormed = true := rfl

theorem witness_OpcodeMapRows_update : (0x0000FF02 : Word) &&& 0xFFFF00FF = 0x00000002 := by decide

theorem witness_OpcodeMapRows_one_row : (⟨"KT_BUILD", 0x10, 0xFFFFFFFF⟩ : OpRow) ∈ opcodeMap ∧
    (⟨"KT_BUILD", 0x10, 0xFFFFFFFF⟩ : OpRow).matchesWord 0x10 = true := by decide

theorem witness_IllegalWords : decode 0x00010000 = .error .reservedNotZero ∧ decode 0x000000FF = .error .unassignedOp ∧
    decode 0x00000101 = .error .argNotZero := by decide

theorem witness_StepRunsTheDecodedCommand :
    ∃ (s t : State) (rest : List Event), s.pending = .txn ⟨0x0000, .write 4 0x00000001⟩ :: rest ∧
      decode 0x00000001 = .ok .crcInit ∧ exec .crcInit { s with pending := rest } = .next t :=
  ⟨{ State.reset with pending := [.command 1] }, _, [], rfl, rfl, rfl⟩

theorem witness_StepRunsTheDecodedCommand_fault :
    ∃ (s : State) (rest : List Event), s.pending = .txn ⟨0x0000, .write 4 0x00000020⟩ :: rest ∧
      exec .cipherFwd { s with pending := rest } = .fault .cipherUnwritten :=
  ⟨{ State.reset with pending := [.command 0x20] }, [], rfl, rfl⟩

theorem witness_IllegalCommandChangesOnlyStatus :
    ∃ (s : State) (rest : List Event), s.pending = .txn ⟨0x0000, .write 4 0x00000000⟩ :: rest ∧
      decode 0x00000000 = .error .unassignedOp :=
  ⟨{ State.reset with pending := [.command 0] }, [], rfl, rfl⟩

theorem witness_BusErrorExactlyWhenRefused :
    (∀ t : Transaction, ∃ (s : State) (rest : List Event), s.pending = .txn t :: rest) ∧
      (0x0018 ≤ (0x0018 : Offset).toNat ∧ (0x0FFC : Offset).toNat ≤ 0x0FFF) ∧ 0x3048 ≤ (0x3048 : Offset).toNat ∧
      (0x3044 : Offset).toNat % 4 = 0 ∧ ¬ (0x0018 ≤ (0x0014 : Offset).toNat ∧ (0x0014 : Offset).toNat ≤ 0x0FFF) :=
  ⟨fun t => ⟨{ State.reset with pending := [.txn t] }, [], rfl⟩, by decide⟩

/-- The case of an accepted transaction that goes on: the last register, 0x0014. -/
theorem witness_BusError_accepted :
    ∃ t, step { State.reset with pending := [.txn ⟨0x0014, .read 4⟩] } = .next t := ⟨_, rfl⟩

/-- Each clause of the read map at the ends of its range. -/
theorem witness_HostReadAnswersTheRegisterMap :
    (∀ off : Offset, ∃ (s : State) (rest : List Event), s.pending = .txn ⟨off, .read 4⟩ :: rest ∧
      s.ksrc = loaded.ksrc ∧ s.ktab = loaded.ktab) ∧
      (0x1000 : Offset).toNat = 0x1000 + 4 * 0 ∧ (0x1FFC : Offset).toNat = 0x1000 + 4 * 1023 ∧
      (0x2000 : Offset).toNat = 0x2000 + 4 * 0 ∧ (0x3044 : Offset).toNat = 0x2000 + 4 * 1041 ∧
      (loaded.ksrc.read (4 * 1023 + 3)).isSome ∧ (loaded.ktab.read (4 * 1041 + 3)).isSome ∧
      0x0018 ≤ (0x0018 : Offset).toNat ∧ (0x3048 : Offset).toNat = 0x3048 :=
  ⟨fun off => ⟨{ loaded with pending := [.rd off] }, [], rfl, rfl, rfl⟩, by decide, by decide, by decide, by decide,
    loaded_source _ (by decide), loaded_table _ (by decide), by decide, by decide⟩

theorem witness_UnwrittenWindowReadStops :
    (∃ (s : State) (rest : List Event), s.pending = .txn ⟨0x1FFC, .read 4⟩ :: rest ∧
      (0x1FFC : Offset).toNat = 0x1000 + 4 * 1023 ∧ s.ksrc.read (4 * 1023 + 3) = none) ∧
    (∃ (s : State) (rest : List Event), s.pending = .txn ⟨0x2000, .read 4⟩ :: rest ∧
      (0x2000 : Offset).toNat = 0x2000 + 4 * 0 ∧ s.ktab.read (4 * 0 + 0) = none) :=
  ⟨⟨{ State.reset with pending := [.rd 0x1FFC] }, [], rfl, by decide, rfl⟩,
    ⟨{ State.reset with pending := [.rd 0x2000] }, [], rfl, by decide, rfl⟩⟩

theorem witness_HostWriteFollowsTheRegisterMap :
    (∀ (off : Offset) (d : Word), ∃ (s : State) (rest : List Event), s.pending = .txn ⟨off, .write 4 d⟩ :: rest) ∧
      (∃ t, execute 0x00000001 { State.reset with pending := [] } = .next t) ∧
      (0x1000 : Offset).toNat = 0x1000 + 4 * 0 ∧ (0x1FFC : Offset).toNat = 0x1000 + 4 * 1023 ∧
      (0x2000 : Offset).toNat = 0x2000 + 4 * 0 ∧ (0x3044 : Offset).toNat = 0x2000 + 4 * 1041 ∧
      0x0018 ≤ (0x0018 : Offset).toNat ∧ (0x3048 : Offset).toNat = 0x3048 :=
  ⟨fun off d => ⟨{ State.reset with pending := [.wr off d] }, [], rfl⟩, ⟨_, rfl⟩, by decide⟩

theorem witness_ReadsChangeNothingAndRepeat :
    ∃ (s t : State) (rest rest' : List Event), s.pending = .txn ⟨0x0008, .read 4⟩ :: rest ∧ step s = .next t ∧
      rest = .txn ⟨0x0008, .read 4⟩ :: rest' :=
  ⟨{ State.reset with pending := [.rd 0x0008, .rd 0x0008] }, _, [.rd 0x0008], [], rfl, rfl, rfl⟩

/-- A write to the last KSRC word, a CRC command, a write to its neighbour, and the read. -/
theorem witness_KsrcReadReturnsTheLatestWrite :
    ∃ t, core.run 4 { State.reset with pending := .txn ⟨BitVec.ofNat 14 (0x1000 + 4 * 1023), .write 4 0x44332211⟩ ::
      ([.command 1, .wr 0x1FF8 7] ++ [.txn ⟨BitVec.ofNat 14 (0x1000 + 4 * 1023), .read 4⟩]) } = .next t ∧
    ∀ e ∈ [Event.command 1, Event.wr 0x1FF8 7], e ≠ .reset ∧
      ∀ d, e ≠ .txn ⟨BitVec.ofNat 14 (0x1000 + 4 * 1023), .write 4 d⟩ := by
  refine ⟨_, rfl, fun e he => ?_⟩
  simp only [List.mem_cons, List.not_mem_nil, or_false] at he
  rcases he with rfl | rfl <;> simp [Event.command, Event.wr]

theorem witness_CrcInit_illegal : (0x00000101 : Word).extractLsb' 0 8 = (0x01 : Byte) ∧ (0x00000101 : Word) ≠ 0x00000001 := by
  decide

theorem witness_CrcUpdate_illegal :
    (0x00010002 : Word).extractLsb' 0 8 = (0x02 : Byte) ∧ (0x00010002 : Word).extractLsb' 16 16 ≠ (0 : Half) := by decide

/-- Between the initialisation and the read: an update, an illegal word, a register write. -/
theorem witness_CrcFollowsItsUpdatesOnly :
    ∃ t, core.run 4 { State.reset with pending := .txn ⟨0x0000, .write 4 0x00000001⟩ ::
      [.command 0x00003102, .command 0, .wr 0x0010 5] } = .next t ∧
    ∀ e ∈ [Event.command 0x00003102, Event.command 0, Event.wr 0x0010 5],
      e ≠ .reset ∧ e ≠ .txn ⟨0x0000, .write 4 0x00000001⟩ := by
  exact ⟨_, rfl, by decide⟩

theorem witness_KtBuildDerivesTheKeyTable :
    loaded.Inv ∧ loaded.ksrcLen = 0x1000 ∧ (∀ i < 0x1000, (loaded.ksrc.read i).isSome) ∧
      ∃ b, loaded.ksrc.read 0x47 = some b :=
  ⟨loaded_inv, rfl, loaded_source, Option.isSome_iff_exists.1 (loaded_source 0x47 (by decide))⟩

theorem witness_KtBuildRefusesOtherLengths :
    ∃ s t : State, s.ksrcLen ≠ 0x1000 ∧ exec .ktBuild s = .next t ∧ t.lastErr = 1 :=
  ⟨State.reset, _, by decide, rfl, rfl⟩

theorem witness_KtBuildStopsExactlyOnUnwrittenSource :
    State.Inv { State.reset with ksrcLen := 0x1000 } ∧
      ∃ i < 0x1000, ({ State.reset with ksrcLen := 0x1000 } : State).ksrc.read i = none :=
  ⟨⟨Memory.wf_nil _, Memory.wf_nil _, by decide⟩, 0xFFF, by decide, rfl⟩

/-- Two builds from one source over different old tables. -/
theorem witness_KtBuildIsDeterministic :
    ∃ s s' t t' : State, s.Inv ∧ s'.Inv ∧ s.ksrcLen = 0x1000 ∧ s'.ksrcLen = 0x1000 ∧
      (∀ a, s.ksrc.read a = s'.ksrc.read a) ∧ s.ktab ≠ s'.ktab ∧ exec .ktBuild s = .next t ∧
      exec .ktBuild s' = .next t' := by
  obtain ⟨t, ht⟩ := loaded_build
  rcases execKtBuild_cases { loaded with ktab := [] } with ⟨h, _⟩ | ⟨_, h, _⟩ | ⟨_, _, _, he⟩
  · exact absurd rfl h
  · have := (State.keySource_isSome_iff loaded_inv).2 loaded_source
    rw [show loaded.keySource = none from h] at this
    cases this
  · exact ⟨loaded, { loaded with ktab := [] }, t, _, loaded_inv,
      ⟨loaded_inv.ksrc_wf, Memory.wf_nil _, loaded_inv.lastErr_le⟩, rfl, rfl, fun _ => rfl,
      (fun h => by
        have := loaded_word 0 (by decide)
        rw [show loaded.ktab = [] from h] at this
        cases this), ht, he⟩

theorem witness_LookupTablesAreTheKeySource :
    ∃ s t : State, s.Inv ∧ s.ksrcLen = 0x1000 ∧ exec .ktBuild s = .next t := by
  obtain ⟨t, ht⟩ := loaded_build
  exact ⟨loaded, t, loaded_inv, rfl, ht⟩

/-- Positions 1 and 0x11 of KS_ID with the byte at 0x11 made equal to the one at 1. -/
theorem witness_EqualSelectorsSelectOneByte :
    ∃ (s t : State) (x y : Nat), s.Inv ∧ s.ksrcLen = 0x1000 ∧ exec .ktBuild s = .next t ∧ x < 0x48 ∧ y < 0x48 ∧
      x ≠ y ∧ x % 16 = y % 16 ∧ s.ksrc.read x = s.ksrc.read y := by
  obtain ⟨b, hb⟩ := Option.isSome_iff_exists.1 (loaded_source 1 (by decide))
  have hI : State.Inv { loaded with ksrc := loaded.ksrc.write 0x11 b } :=
    ⟨Memory.write_wf _ loaded_inv.ksrc_wf (by decide), loaded_inv.ktab_wf, loaded_inv.lastErr_le⟩
  rcases execKtBuild_cases { loaded with ksrc := loaded.ksrc.write 0x11 b } with ⟨h, _⟩ | ⟨_, h, _⟩ | ⟨_, _, _, he⟩
  · exact absurd rfl h
  · have := (State.keySource_isSome_iff hI).2 (fun i hi => by
      rw [Memory.read_write]
      split
      · rfl
      · exact loaded_source i hi)
    rw [h] at this
    cases this
  · refine ⟨_, _, 1, 0x11, hI, rfl, he, by decide, by decide, by decide, rfl, ?_⟩
    rw [Memory.read_write_same, Memory.read_write_other _ _ (by decide), hb]

/-- The all-zero table with `(DATA0, DATA1) = (1, 0)`: every round swaps the halves (V-CI-2). -/
theorem witness_CipherFwdEnciphers :
    ∃ (T x y : Nat → Word) (F : Word → Word), loaded.Inv ∧
      (∀ w < 1042, loaded.ktab.readWord (4 * w) = some (T w)) ∧
      (∀ z : Word, F z =
        ((T (0x012 + (z.extractLsb' 24 8).toNat) + T (0x112 + (z.extractLsb' 16 8).toNat)) ^^^
          T (0x212 + (z.extractLsb' 8 8).toNat)) + T (0x312 + (z.extractLsb' 0 8).toNat)) ∧
      x 0 = loaded.data1 ∧ y 0 = loaded.data0 ∧
      (∀ i < 16, y (i + 1) = T i ^^^ x i ∧ x (i + 1) = y i ^^^ F (y (i + 1))) :=
  ⟨fun _ => 0, fun i => BitVec.ofNat 32 (i % 2), fun i => BitVec.ofNat 32 ((i + 1) % 2), fun _ => 0, loaded_inv,
    loaded_word, fun _ => by simp, rfl, rfl, by decide⟩

theorem witness_CipherRevDeciphers :
    ∃ (T x y : Nat → Word) (F : Word → Word), loaded.Inv ∧
      (∀ w < 1042, loaded.ktab.readWord (4 * w) = some (T w)) ∧
      (∀ z : Word, F z =
        ((T (0x012 + (z.extractLsb' 24 8).toNat) + T (0x112 + (z.extractLsb' 16 8).toNat)) ^^^
          T (0x212 + (z.extractLsb' 8 8).toNat)) + T (0x312 + (z.extractLsb' 0 8).toNat)) ∧
      x 0 = loaded.data1 ∧ y 0 = loaded.data0 ∧
      (∀ j < 16, y (j + 1) = T (0x11 - j) ^^^ x j ∧ x (j + 1) = y j ^^^ F (y (j + 1))) :=
  ⟨fun _ => 0, fun i => BitVec.ofNat 32 (i % 2), fun i => BitVec.ofNat 32 ((i + 1) % 2), fun _ => 0, loaded_inv,
    loaded_word, fun _ => by simp, rfl, rfl, by decide⟩

theorem witness_CipherRev_illegal :
    (0x00000120 : Word).extractLsb' 0 8 = (0x20 : Byte) ∧ (0x00000120 : Word) ≠ 0x00000020 ∧
      (0x80000021 : Word).extractLsb' 0 8 = (0x21 : Byte) ∧ (0x80000021 : Word) ≠ 0x00000021 := by decide

/-- Also the witness of the converse and of the block that never stops. -/
theorem witness_ReverseUndoesForward : loaded.Inv ∧ loaded.KeyTableWritten := ⟨loaded_inv, loaded_table⟩

theorem witness_ForwardUndoesReverse : loaded.Inv ∧ loaded.KeyTableWritten := ⟨loaded_inv, loaded_table⟩

theorem witness_CipherStopsExactlyOnUnwrittenTable : State.reset.Inv ∧ ∃ i < 0x1048, State.reset.ktab.read i = none :=
  ⟨⟨Memory.wf_nil _, Memory.wf_nil _, by decide⟩, 0x1047, by decide, rfl⟩

/-- A legal word, a refused build and an illegal word. -/
theorem witness_EveryCommandWriteCompletesStatus :
    ∀ w ∈ [(0x00000001 : Word), 0x00000010, 0x00000000], ∃ (s t : State) (rest : List Event),
      s.pending = .txn ⟨0x0000, .write 4 w⟩ :: rest ∧ step s = .next t := by
  intro w hw
  refine ⟨{ State.reset with pending := [.command w] }, ?_⟩
  simp only [List.mem_cons, List.not_mem_nil, or_false] at hw
  rcases hw with rfl | rfl | rfl <;> exact ⟨_, [], rfl, rfl⟩

theorem witness_StickyClearedOnlyByWriteOneOrReset :
    ∀ e ∈ [Event.reset, Event.wr 0x0004 0x00000100], ∃ s t : State, s.pending = [e] ∧ step s = .next t ∧
      s.errSticky = true ∧ t.errSticky = false := by
  intro e he
  refine ⟨{ State.reset with errSticky := true, pending := [e] }, ?_⟩
  simp only [List.mem_cons, List.not_mem_nil, or_false] at he
  rcases he with rfl | rfl <;> exact ⟨_, rfl, rfl, rfl, rfl⟩

theorem witness_CrcWrittenOnlyByItsCommandsOrReset :
    ∃ s t : State, step s = .next t ∧ t.crc ≠ s.crc :=
  ⟨{ State.reset with pending := [.command 0x00000002] }, _, rfl, by decide⟩

theorem witness_KsrcWrittenOnlyThroughItsWindowOrReset :
    ∃ s t : State, step s = .next t ∧ t.ksrc ≠ s.ksrc :=
  ⟨{ State.reset with pending := [.wr 0x1FFC 1] }, _, rfl, by decide⟩

theorem witness_KsrcLenWrittenOnlyByTheHostOrReset :
    ∃ s t : State, step s = .next t ∧ t.ksrcLen ≠ s.ksrcLen :=
  ⟨{ State.reset with pending := [.wr 0x000C 0x1000] }, _, rfl, by decide⟩

theorem witness_KtabWrittenOnlyByBuildWindowOrReset :
    ∃ s t : State, step s = .next t ∧ t.ktab ≠ s.ktab :=
  ⟨{ State.reset with pending := [.wr 0x3044 1] }, _, rfl, by decide⟩

theorem witness_DataWrittenOnlyByHostCipherOrReset :
    ∃ s t : State, step s = .next t ∧ t.data0 ≠ s.data0 :=
  ⟨{ State.reset with pending := [.wr 0x0010 1] }, _, rfl, by decide⟩

/-- Two blocks with unlike data words that both go on. -/
theorem witness_CrcIsIndependentOfTheOtherEngines :
    ∃ s s' t t' : State, s.data0 ≠ s'.data0 ∧ s.crc = s'.crc ∧ s.pending = s'.pending ∧ core.run 1 s = .next t ∧
      core.run 1 s' = .next t' :=
  ⟨{ State.reset with pending := [.command 2] }, { State.reset with data0 := 1, pending := [.command 2] }, _, _,
    by decide, rfl, rfl, rfl, rfl⟩

theorem witness_ResetEventRestoresTheResetValues :
    ∃ (s : State) (rest : List Event), s.crc ≠ 0xFFFF ∧ s.pending = .reset :: rest :=
  ⟨{ State.reset with crc := 0, pending := [.reset] }, [], by decide, rfl⟩

theorem witness_IdleBlockHoldsItsState : loaded.pending = [] := rfl

/-- The first and last address of a window, and the first one past it. -/
theorem witness_WindowPlacesOffsetsAtTheBase :
    windowOffset 0x8000 0x8000 = some 0 ∧ windowOffset 0x8000 0xBFFF = some 0x3FFF ∧ windowOffset 0x8000 0xC000 = none ∧
      windowOffset 0x8000 0x7FFF = none := by decide

theorem witness_KsrcLoadFillsTheKeySource : loaded.Inv ∧ patSource.length = 0x1000 :=
  ⟨loaded_inv, by rw [patSource, List.length_map, List.length_range]⟩

theorem witness_StepKeepsInv : ∃ s t : State, s.Inv ∧ step s = .next t ∧ t.ktab ≠ s.ktab :=
  ⟨{ loaded with ktab := [], pending := [.wr 0x3044 1] }, _,
    ⟨loaded_inv.ksrc_wf, Memory.wf_nil _, loaded_inv.lastErr_le⟩, rfl, by decide⟩

theorem witness_LoadedBlockNeverStops :
    State.Inv { loaded with pending := [.command 0x21] } ∧
      State.KeySourceWritten { loaded with pending := [.command 0x21] } ∧
      State.KeyTableWritten { loaded with pending := [.command 0x21] } ∧
      Event.reset ∉ ({ loaded with pending := [.command 0x21] } : State).pending :=
  ⟨⟨loaded_inv.ksrc_wf, loaded_inv.ktab_wf, loaded_inv.lastErr_le⟩, loaded_source, loaded_table, by
    show Event.reset ∉ [Event.command 0x21]; decide⟩

/-- Each of the four stops occurs. -/
theorem witness_OnlyUnwrittenBytesStopAStep :
    step { State.reset with pending := [.rd 0x1000] } = .fault .ksrcReadUnwritten ∧
      step { State.reset with pending := [.rd 0x2000] } = .fault .ktabReadUnwritten ∧
      step { State.reset with ksrcLen := 0x1000, pending := [.command 0x10] } = .fault .ktBuildUnwritten ∧
      step { State.reset with pending := [.command 0x20] } = .fault .cipherUnwritten := ⟨rfl, rfl, rfl, rfl⟩

end Sys2Proof.Tests
end

section
/-! The scope of the block (00_scope.md): where its window sits, and what each event does to `CRC`. -/

namespace Sys2Proof.Machine

/-! ### The window -/

/-- An address reaches the block at an offset exactly when it is `BASE` plus that offset (00_scope.md R8): the offsets
of the window are the values of 14 bits. -/
theorem windowOffset_eq_some_iff {base addr : Nat} {off : Offset} :
    windowOffset base addr = some off ↔ addr = base + off.toNat := by
  have hoff := off.isLt
  unfold windowOffset Config.windowSize
  split
  case isTrue h => rw [Option.some.injEq, ← BitVec.toNat_inj, BitVec.toNat_ofNat]; omega
  case isFalse h => simp only [reduceCtorEq, false_iff]; omega

/-- An access outside the window never reaches the block (10_state.md R38). -/
theorem State.submit_outside {base addr : Nat} (h : addr < base ∨ base + 0x4000 ≤ addr) (a : Access) (s : State) :
    s.submit base addr a = s := by
  have hw : windowOffset base addr = none := if_neg (by simp only [Config.windowSize]; omega)
  simp only [State.submit, hw]

/-- An access inside the window becomes the last of the events in store, at its offset (20_memory.md R63). -/
theorem State.submit_inside {base addr : Nat} (hl : base ≤ addr) (hu : addr < base + 0x4000) (a : Access) (s : State) :
    s.submit base addr a = { s with pending := s.pending ++ [.txn ⟨BitVec.ofNat 14 (addr - base), a⟩] } := by
  have hw : windowOffset base addr = some (BitVec.ofNat 14 (addr - base)) := if_pos ⟨hl, hu⟩
  simp only [State.submit, hw]

/-- Settles O43: the offset's iff, then an access outside and one inside. -/
theorem windowPlacesOffsetsAtTheBase : Obligations.WindowPlacesOffsetsAtTheBase := fun _ _ =>
  ⟨fun _ => windowOffset_eq_some_iff, fun a s h => State.submit_outside h a s,
    fun a s hl hu => State.submit_inside hl hu a s⟩

/-! ### `CRC` as a function of `CRC` and the events alone (00_scope.md R3) -/

/-- `CRC` after a command that completes, from `CRC` before it (40_crc16.md R104, R105). -/
def crcAfterCommand (c : Half) : Instr → Half
  | .crcInit => crcInitial
  | .crcUpdate b => crcStep c b
  | .ktBuild => c
  | .cipherFwd => c
  | .cipherRev => c

/-- `CRC` after the execution of a command word; an illegal one leaves it (60_exceptions.md R174). -/
def crcAfterWord (c : Half) (w : Word) : Half :=
  match decode w with
  | .ok i => crcAfterCommand c i
  | .error _ => c

/-- `CRC` after an event: only a reset and an accepted write to CMD touch it (10_state.md R23, R41). -/
def crcAfterEvent (c : Half) : Event → Half
  | .reset => State.reset.crc
  | .txn ⟨_, .read _⟩ => c
  | .txn ⟨off, .write size w⟩ => if busTarget off size = some .cmd then crcAfterWord c w else c

/-- No command touches the events in store. -/
theorem exec_pending {i : Instr} {s t : State} (h : exec i s = .next t) : t.pending = s.pending := by
  obtain ⟨c, k, d0, d1, rfl, -⟩ := exec_next h
  rfl

theorem exec_crc {i : Instr} {s t : State} (h : exec i s = .next t) : t.crc = crcAfterCommand s.crc i := by
  have other (hi : i ≠ .crcInit) (hu : ∀ b, i ≠ .crcUpdate b) : t.crc = s.crc := by
    obtain ⟨c, k, d0, d1, rfl, hc, -⟩ := exec_next h
    by_contra hne
    rcases hc hne with h' | ⟨b, h'⟩
    · exact hi h'
    · exact hu b h'
  cases i with
  | crcInit => cases h; rfl
  | crcUpdate b => cases h; rfl
  | ktBuild => exact other nofun nofun
  | cipherFwd => exact other nofun nofun
  | cipherRev => exact other nofun nofun

theorem execute_pending {w : Word} {s t : State} (h : execute w s = .next t) : t.pending = s.pending := by
  rcases execute_cases w s with ⟨i, -, he⟩ | ⟨e, -, he⟩ <;> rw [he] at h
  · exact exec_pending h
  · cases h; rfl

theorem execute_crc {w : Word} {s t : State} (h : execute w s = .next t) : t.crc = crcAfterWord s.crc w := by
  rcases execute_cases w s with ⟨i, hd, he⟩ | ⟨e, hd, he⟩ <;> rw [he] at h <;> simp only [crcAfterWord, hd]
  · exact exec_crc h
  · cases h; rfl

theorem writeTarget_pending {data : Word} {s u : State} {tgt : Target} (h : writeTarget data s tgt = .next u) :
    u.pending = s.pending := by
  cases tgt with
  | cmd => exact execute_pending h
  | _ => cases h; rfl

theorem writeTarget_crc {data : Word} {s u : State} {tgt : Target} (h : writeTarget data s tgt = .next u) :
    u.crc = if tgt = .cmd then crcAfterWord s.crc data else s.crc := by
  cases tgt with
  | cmd => exact execute_crc h
  | _ => cases h; rfl

/-- A step takes the next event from the store, and leaves the rest. -/
theorem step_pending {s t : State} (h : step s = .next t) : t.pending = s.pending.tail := by
  rcases step_next h with ⟨hp, rfl⟩ | ⟨rest, hp, rfl⟩ | ⟨off, size, rest, r, hp, rfl⟩ |
    ⟨off, size, data, rest, hp, -, rfl⟩ | ⟨off, data, rest, tgt, u, hp, -, hu, rfl⟩
  · simp [hp]
  · simp [hp]
  · simp [hp]
  · simp [hp]
  · simp [hp, writeTarget_pending hu]

/-- A step takes `CRC` to what the next event, if there is one, makes of it: no other element has a part in it. -/
theorem step_crc {s t : State} (h : step s = .next t) : t.crc = (s.pending.take 1).foldl crcAfterEvent s.crc := by
  rcases step_next h with ⟨hp, rfl⟩ | ⟨rest, hp, rfl⟩ | ⟨off, size, rest, r, hp, rfl⟩ |
    ⟨off, size, data, rest, hp, hb, rfl⟩ | ⟨off, data, rest, tgt, u, hp, hb, hu, rfl⟩
  · simp [hp]
  · simp [hp, crcAfterEvent, State.reset]
  · simp [hp, crcAfterEvent]
  · simp [hp, crcAfterEvent, hb]
  · simp [hp, crcAfterEvent, hb, writeTarget_crc hu]

/-- A run of `n` steps takes `CRC` to the fold of the first `n` events in store over it. -/
theorem core_run_crc {n : Nat} {s t : State} (h : core.run n s = .next t) :
    t.crc = (s.pending.take n).foldl crcAfterEvent s.crc := by
  induction n generalizing s with
  | zero => cases h; rfl
  | succ n ih =>
    obtain ⟨u, hu, hrun⟩ := core_run_succ_eq_next.1 h
    have htake : s.pending.take (n + 1) = s.pending.take 1 ++ s.pending.tail.take n := by
      cases s.pending <;> simp
    rw [ih hrun, step_pending hu, step_crc hu, htake, List.foldl_append]

/-- Settles O39: the fold of the first `n` events over `CRC` names no other element of the state. -/
theorem crcIsIndependentOfTheOtherEngines : Obligations.CrcIsIndependentOfTheOtherEngines := by
  intro n s s' t t' hcrc hpending hrun hrun'
  rw [core_run_crc hrun, core_run_crc hrun', hcrc, hpending]

end Sys2Proof.Machine
end

section
/-! The block's state (10_state.md): its reset values, the invariant that every step keeps, and which events write each
element. -/

namespace Sys2Proof.Machine

/-! ### The target of an offset, the word of a command -/

/-- A target is accepted at its one place in the register map (10_state.md R30). -/
theorem offsetTarget_offset {off : Nat} {tgt : Target} (h : offsetTarget off = some tgt) : off = targetOffset tgt := by
  unfold offsetTarget at h
  repeat' split at h
  all_goals cases h
  all_goals simp only [targetOffset]
  all_goals omega

theorem busTarget_offset {off : Offset} {size : Nat} {tgt : Target} (h : busTarget off size = some tgt) :
    off = BitVec.ofNat 14 (targetOffset tgt) := by
  obtain ⟨-, -, ho⟩ := busTarget_eq_some.1 h
  rw [← offsetTarget_offset ho, BitVec.ofNat_toNat, BitVec.setWidth_eq]

/-- An accepted KSRC word lies in the KSRC window, and wholly inside the memory (20_memory.md R54). -/
theorem busTarget_ksrc {off : Offset} {size k : Nat} (h : busTarget off size = some (.ksrc k)) :
    off.toNat = 0x1000 + k ∧ k + 3 < Config.ksrcSize :=
  (offsetTarget_window (busTarget_eq_some.1 h).2.2).1 k rfl

/-- An accepted KTAB word lies in the KTAB window, and wholly inside the memory (20_memory.md R54). -/
theorem busTarget_ktab {off : Offset} {size k : Nat} (h : busTarget off size = some (.ktab k)) :
    off.toNat = 0x2000 + k ∧ k + 3 < Config.ktabSize :=
  (offsetTarget_window (busTarget_eq_some.1 h).2.2).2 k rfl

/-- A word that decodes is the word of its command (30_encoding.md R84). -/
theorem eq_encode_of_decode {w : Word} {i : Instr} (h : decode w = .ok i) : w = encode i := by
  rw [word_of_decode h]
  obtain ⟨-, ⟨ho, ha, rfl⟩ | ⟨ho, rfl⟩ | ⟨ho, ha, rfl⟩ | ⟨ho, ha, rfl⟩ | ⟨ho, ha, rfl⟩⟩ := decode_eq_ok.1 h <;>
    simp only [encode, *]

/-! ### What an executed word can change -/

/-- What the execution of a word has done where it goes on: `CRC`, `KTAB` and the data words change by their own
commands only, STATUS is completed with some code, and everything else is as before. -/
theorem execute_next {w : Word} {s u : State} (h : execute w s = .next u) :
    ∃ c k d0 d1 code, u = { s with crc := c, ktab := k, data0 := d0, data1 := d1 }.complete code ∧
      (c ≠ s.crc → decode w = .ok .crcInit ∨ ∃ b, decode w = .ok (.crcUpdate b)) ∧
      (k ≠ s.ktab → decode w = .ok .ktBuild ∧ s.ksrcLen = 0x1000 ∧
        ∃ ks, s.keySource = some ks ∧ k = Memory.ofBytes (keyTable ks)) ∧
      ((d0 ≠ s.data0 ∨ d1 ≠ s.data1) → decode w = .ok .cipherFwd ∨ decode w = .ok .cipherRev) := by
  rcases execute_cases w s with ⟨i, hd, he⟩ | ⟨e, -, he⟩
  · obtain ⟨c, k, d0, d1, hu, hc, hk, hdata⟩ := exec_next (he ▸ h)
    simp only [hd, Except.ok.injEq]
    exact ⟨c, k, d0, d1, _, hu, hc, hk, hdata⟩
  · cases he ▸ h
    exact ⟨s.crc, s.ktab, s.data0, s.data1, _, rfl, by simp⟩

/-! ### The invariant (10_state.md R24, R26; 60_exceptions.md R171) -/

/-- Settles O45: nothing is listed, and `LAST_ERR` is 0. -/
theorem invHoldsAtReset : Obligations.InvHoldsAtReset :=
  ⟨Memory.wf_nil _, Memory.wf_nil _, by decide⟩

/-- The invariant speaks of the block's own part of the state only. -/
theorem State.inv_block {s : State} : s.block.Inv ↔ s.Inv :=
  ⟨fun ⟨hks, hkt, he⟩ => ⟨hks, hkt, he⟩, fun ⟨hks, hkt, he⟩ => ⟨hks, hkt, he⟩⟩

theorem State.Inv.of_block_eq {s t : State} (hs : s.Inv) (h : t.block = s.block) : t.Inv :=
  State.inv_block.1 (h ▸ State.inv_block.2 hs)

/-- A key table is as long as `KTAB` (41_keytable.md R125), so a built one is in canonical form inside it. -/
theorem ofBytes_keyTable_wf {s : State} {ks : List Byte} (h : s.keySource = some ks) :
    (Memory.ofBytes (keyTable ks)).wf Config.ktabSize := by
  have hlen : (keyTable ks).length = Config.ktabSize := by
    rw [keyTable_length, (State.keySource_eq_some.1 h).1]
    rfl
  exact hlen ▸ Memory.ofBytes_wf (keyTable ks)

theorem execute_inv {w : Word} {s u : State} (hs : s.Inv) (h : execute w s = .next u) : u.Inv := by
  obtain ⟨c, k, d0, d1, code, rfl, -, hk, -⟩ := execute_next h
  refine ⟨hs.ksrc_wf, ?_, code.bits_le⟩
  show k.wf Config.ktabSize
  by_cases hkeep : k = s.ktab
  · exact hkeep ▸ hs.ktab_wf
  · obtain ⟨-, -, ks, hks, rfl⟩ := hk hkeep
    exact ofBytes_keyTable_wf hks

theorem writeTarget_inv {off : Offset} {data : Word} {s u : State} {tgt : Target} (hs : s.Inv)
    (hb : busTarget off 4 = some tgt) (h : writeTarget data s tgt = .next u) : u.Inv := by
  cases tgt with
  | cmd => exact execute_inv hs h
  | ksrc k => cases h; exact { hs with ksrc_wf := Memory.writeWord_wf data hs.ksrc_wf (busTarget_ksrc hb).2 }
  | ktab k => cases h; exact { hs with ktab_wf := Memory.writeWord_wf data hs.ktab_wf (busTarget_ktab hb).2 }
  | _ => cases h; exact ⟨hs.ksrc_wf, hs.ktab_wf, hs.lastErr_le⟩

/-- Settles O46: every way a step goes on keeps the block, resets it, or is an accepted write. -/
theorem stepKeepsInv : Obligations.StepKeepsInv := by
  intro s t hs h
  rcases step_next h with ⟨-, rfl⟩ | ⟨rest, -, rfl⟩ | ⟨off, size, rest, r, -, rfl⟩ |
    ⟨off, size, data, rest, -, -, rfl⟩ | ⟨off, data, rest, tgt, u, -, hb, hu, rfl⟩
  · exact hs
  · exact State.Inv.of_block_eq invHoldsAtReset rfl
  · exact hs.of_block_eq rfl
  · exact hs.of_block_eq rfl
  · have hpend : State.Inv { s with pending := rest } := hs.of_block_eq rfl
    exact (writeTarget_inv hpend hb hu).of_block_eq rfl

/-! ### The reset values -/

/-- Settles O40: the fields of `State.reset`, and that an empty memory reads nowhere. -/
theorem resetValues : Obligations.ResetValues :=
  ⟨rfl, rfl, rfl, rfl, rfl, rfl, Memory.read_nil, Memory.read_nil⟩

/-! ### The lookup tables after a build (10_state.md R27) -/

/-- A word depends on its four bytes only, wherever they lie. -/
theorem Memory.readWord_congr {m m' : Memory} {a a' : Nat} (h : ∀ j < 4, m.read (a + j) = m'.read (a' + j)) :
    m.readWord a = m'.readWord a' := by
  have h0 : m.read a = m'.read a' := h 0 (by decide)
  unfold Memory.readWord
  rw [h0, h 1 (by decide), h 2 (by decide), h 3 (by decide)]

/-- A build that passes its size check and goes on has consumed the whole key source and written its key table. -/
theorem exec_ktBuild_next {s t : State} (hl : s.ksrcLen = 0x1000) (h : exec .ktBuild s = .next t) :
    ∃ ks, ks.length = Config.ksrcSize ∧ s.ksrc = Memory.ofBytes ks ∧ t.ktab = Memory.ofBytes (keyTable ks) := by
  have h : execKtBuild s = .next t := h
  rcases execKtBuild_cases s with ⟨hne, -⟩ | ⟨-, -, he⟩ | ⟨-, ks, hks, he⟩
  · exact absurd hl hne
  · cases he ▸ h
  · obtain ⟨hlen, hsrc⟩ := State.keySource_eq_some.1 hks
    cases he ▸ h
    exact ⟨ks, hlen, hsrc, rfl⟩

/-- Settles O25: byte `0x48 + i` of the key table is byte `i` of the key source, so the words agree. -/
theorem lookupTablesAreTheKeySource : Obligations.LookupTablesAreTheKeySource := by
  intro s t _ hl h k hk
  obtain ⟨ks, hlen, hsrc, htab⟩ := exec_ktBuild_next hl h
  rw [hsrc, htab]
  constructor
  · refine Memory.readWord_congr fun j _ => ?_
    rw [show 4 * (0x12 + k) + j = Config.headerSize + (4 * k + j) by simp only [Config.headerSize]; omega,
      Memory.read_ofBytes, Memory.read_ofBytes, keyTable_body]
  · rw [Memory.readWord_ofBytes ks (by simp only [hlen, Config.ksrcSize]; omega)]
    rfl

/-! ### Who writes each element (10_state.md R23–R29) -/

/-- The accepted write of `data` to `tgt` takes `s` to `u` within each element's writers: which target, and at CMD which
command, a change of the element needs. -/
structure WritesOnlyItsElements (data : Word) (tgt : Target) (s u : State) : Prop where
  crc : u.crc ≠ s.crc → tgt = .cmd ∧ (decode data = .ok .crcInit ∨ ∃ b, decode data = .ok (.crcUpdate b))
  ksrc : u.ksrc ≠ s.ksrc → ∃ k, tgt = .ksrc k
  ksrcLen : u.ksrcLen ≠ s.ksrcLen → tgt = .ksrcLen
  ktab : u.ktab ≠ s.ktab → (tgt = .cmd ∧ decode data = .ok .ktBuild ∧ s.ksrcLen = 0x1000) ∨ ∃ k, tgt = .ktab k
  data0 : u.data0 ≠ s.data0 → tgt = .data0 ∨ tgt = .cmd ∧ (decode data = .ok .cipherFwd ∨ decode data = .ok .cipherRev)
  data1 : u.data1 ≠ s.data1 → tgt = .data1 ∨ tgt = .cmd ∧ (decode data = .ok .cipherFwd ∨ decode data = .ok .cipherRev)
  sticky : s.errSticky = true → u.errSticky ≠ s.errSticky → tgt = .status ∧ data.getLsbD 8 = true

theorem writeTarget_writesOnlyItsElements {data : Word} {s u : State} {tgt : Target}
    (h : writeTarget data s tgt = .next u) : WritesOnlyItsElements data tgt s u := by
  cases tgt with
  | cmd =>
    obtain ⟨c, k, d0, d1, code, rfl, hc, hk, hdata⟩ := execute_next h
    exact {
      crc := fun hne => ⟨rfl, hc hne⟩
      ksrc := fun hne => absurd rfl hne
      ksrcLen := fun hne => absurd rfl hne
      ktab := fun hne => .inl ⟨rfl, (hk hne).1, (hk hne).2.1⟩
      data0 := fun hne => .inr ⟨rfl, hdata (.inl hne)⟩
      data1 := fun hne => .inr ⟨rfl, hdata (.inr hne)⟩
      sticky := fun hset hne => absurd (by simp [hset]) hne }
  | _ => cases h; constructor <;> simp

/-- An element of the block that a step changes has been changed by a reset or by an accepted write: idling, a read and
a refused write keep the block (20_memory.md R56, R57). -/
theorem reset_or_write_of_step {α : Type} {f : State → α} (hf : ∀ s : State, f s.block = f s) {s t : State}
    (h : step s = .next t) (hne : f t ≠ f s) :
    ∃ rest, s.pending = .reset :: rest ∨ ∃ off data tgt u, s.pending = .txn ⟨off, .write 4 data⟩ :: rest ∧
      busTarget off 4 = some tgt ∧ WritesOnlyItsElements data tgt s u ∧ f u ≠ f s := by
  have keep {u v : State} (hb : u.block = v.block) : f u = f v := by rw [← hf u, hb, hf v]
  rcases step_next h with ⟨-, rfl⟩ | ⟨rest, hp, -⟩ | ⟨off, size, rest, r, -, rfl⟩ |
    ⟨off, size, data, rest, -, -, rfl⟩ | ⟨off, data, rest, tgt, u, hp, hb, hu, rfl⟩
  · exact absurd rfl hne
  · exact ⟨rest, .inl hp⟩
  · exact (hne (keep rfl)).elim
  · exact (hne (keep rfl)).elim
  · have hw := writeTarget_writesOnlyItsElements hu
    rw [show f (u.respond .ok) = f u from keep rfl] at hne
    exact ⟨rest, .inr ⟨off, data, tgt, u, hp, hb, { hw with }, hne⟩⟩

/-- Settles O33: of the writes, only one of 1 to STATUS bit 8 clears it. -/
theorem stickyClearedOnlyByWriteOneOrReset : Obligations.StickyClearedOnlyByWriteOneOrReset := by
  intro s t h hset hclear
  obtain ⟨rest, hp | ⟨off, d, tgt, u, hp, hb, hw, hne⟩⟩ :=
    reset_or_write_of_step State.block_errSticky h (by simp [hset, hclear])
  · exact ⟨rest, .inl hp⟩
  · obtain ⟨rfl, hbit⟩ := hw.sticky hset hne
    cases busTarget_offset hb
    exact ⟨rest, .inr ⟨d, hbit, hp⟩⟩

/-- Settles O34: of the writes, only one to CMD of a checksum command's word changes `CRC`. -/
theorem crcWrittenOnlyByItsCommandsOrReset : Obligations.CrcWrittenOnlyByItsCommandsOrReset := by
  intro s t h hne
  obtain ⟨rest, hp | ⟨off, d, tgt, u, hp, hb, hw, hne⟩⟩ := reset_or_write_of_step State.block_crc h hne
  · exact ⟨rest, .inl hp⟩
  · obtain ⟨rfl, hd⟩ := hw.crc hne
    cases busTarget_offset hb
    exact ⟨rest, .inr ⟨d, hp, hd⟩⟩

/-- Settles O35: of the writes, only one to a KSRC word changes `KSRC`. -/
theorem ksrcWrittenOnlyThroughItsWindowOrReset : Obligations.KsrcWrittenOnlyThroughItsWindowOrReset := by
  intro s t h hne
  obtain ⟨rest, hp | ⟨off, d, tgt, u, hp, hb, hw, hne⟩⟩ := reset_or_write_of_step State.block_ksrc h hne
  · exact ⟨rest, .inl hp⟩
  · obtain ⟨k, rfl⟩ := hw.ksrc hne
    have hwin := busTarget_ksrc hb
    simp only [Config.ksrcSize] at hwin
    exact ⟨rest, .inr ⟨off, d, by omega, by omega, hp⟩⟩

/-- Settles O36: of the writes, only one to KSRC_LEN changes it. -/
theorem ksrcLenWrittenOnlyByTheHostOrReset : Obligations.KsrcLenWrittenOnlyByTheHostOrReset := by
  intro s t h hne
  obtain ⟨rest, hp | ⟨off, d, tgt, u, hp, hb, hw, hne⟩⟩ := reset_or_write_of_step State.block_ksrcLen h hne
  · exact ⟨rest, .inl hp⟩
  · cases hw.ksrcLen hne
    cases busTarget_offset hb
    exact ⟨rest, .inr ⟨d, hp⟩⟩

/-- Settles O37: of the writes, only a `KT_BUILD` that passes its size check and one to a KTAB word change `KTAB`. -/
theorem ktabWrittenOnlyByBuildWindowOrReset : Obligations.KtabWrittenOnlyByBuildWindowOrReset := by
  intro s t h hne
  obtain ⟨rest, hp | ⟨off, d, tgt, u, hp, hb, hw, hne⟩⟩ := reset_or_write_of_step State.block_ktab h hne
  · exact ⟨rest, .inl hp⟩
  · rcases hw.ktab hne with ⟨rfl, hd, hl⟩ | ⟨k, rfl⟩
    · cases busTarget_offset hb
      cases eq_encode_of_decode hd
      exact ⟨rest, .inr (.inl ⟨hp, hl⟩)⟩
    · have hwin := busTarget_ktab hb
      simp only [Config.ktabSize] at hwin
      exact ⟨rest, .inr (.inr ⟨off, d, by omega, by omega, hp⟩)⟩

/-- The two cipher commands have one word each (30_encoding.md R84). -/
theorem cipher_word {w : Word} (h : decode w = .ok .cipherFwd ∨ decode w = .ok .cipherRev) :
    w = 0x00000020 ∨ w = 0x00000021 :=
  h.imp eq_encode_of_decode eq_encode_of_decode

/-- A data word that a step changes has been changed by a reset, by a write at its own offset or by a cipher command. -/
theorem reset_or_host_or_cipher_of_step {f : State → Word} {own : Target} (hf : ∀ s : State, f s.block = f s)
    (writers : ∀ {data tgt s u}, WritesOnlyItsElements data tgt s u → f u ≠ f s →
      tgt = own ∨ tgt = .cmd ∧ (decode data = .ok .cipherFwd ∨ decode data = .ok .cipherRev))
    {s t : State} (h : step s = .next t) (hne : f t ≠ f s) :
    ∃ rest, s.pending = .reset :: rest ∨
      (∃ d : Word, s.pending = .txn ⟨BitVec.ofNat 14 (targetOffset own), .write 4 d⟩ :: rest) ∨
      ∃ w : Word, (w = 0x00000020 ∨ w = 0x00000021) ∧ s.pending = .txn ⟨0x0000, .write 4 w⟩ :: rest := by
  obtain ⟨rest, hp | ⟨off, d, tgt, u, hp, hb, hw, hne⟩⟩ := reset_or_write_of_step hf h hne
  · exact ⟨rest, .inl hp⟩
  · rcases writers hw hne with rfl | ⟨rfl, hd⟩ <;> cases busTarget_offset hb
    · exact ⟨rest, .inr (.inl ⟨d, hp⟩)⟩
    · exact ⟨rest, .inr (.inr ⟨d, cipher_word hd, hp⟩)⟩

/-- Settles O38: the two data words differ in their own offset only. -/
theorem dataWrittenOnlyByHostCipherOrReset : Obligations.DataWrittenOnlyByHostCipherOrReset := fun _ _ h =>
  ⟨reset_or_host_or_cipher_of_step State.block_data0 WritesOnlyItsElements.data0 h,
    reset_or_host_or_cipher_of_step State.block_data1 WritesOnlyItsElements.data1 h⟩

end Sys2Proof.Machine
end

section
/-! The host bus (20_memory.md): the register map both ways, what each access answers and does, and that a KSRC word
holds the latest write to it. -/

namespace Sys2Proof.Machine

/-! ### The register map both ways (20_memory.md R54) -/

theorem Target.ksrc_wellFormed_iff {j : Nat} : (Target.ksrc j).wellFormed = true ↔ j % 4 = 0 ∧ j < 0x1000 := by
  simp [Target.wellFormed]

theorem Target.ktab_wellFormed_iff {j : Nat} : (Target.ktab j).wellFormed = true ↔ j % 4 = 0 ∧ j < 0x1048 := by
  simp [Target.wellFormed]

/-- An aligned offset selects a register or a word of a window only (30_encoding.md R88). -/
theorem offsetTarget_wellFormed {off : Nat} {t : Target} (hal : off % 4 = 0) (h : offsetTarget off = some t) :
    t.wellFormed = true := by
  obtain ⟨hksrc, hktab⟩ := offsetTarget_window h
  simp only [Config.ksrcSize, Config.ktabSize] at hksrc hktab
  cases t with
  | ksrc j => have := hksrc j rfl; exact Target.ksrc_wellFormed_iff.2 (by omega)
  | ktab j => have := hktab j rfl; exact Target.ktab_wellFormed_iff.2 (by omega)
  | _ => rfl

theorem offsetTarget_ksrc {j : Nat} (h : j ≤ 0x0FFC) : offsetTarget (0x1000 + j) = some (.ksrc j) := by
  unfold offsetTarget
  simp (disch := omega) only [if_neg, if_pos, Nat.add_sub_cancel_left]

theorem offsetTarget_ktab {j : Nat} (h : j ≤ 0x1044) : offsetTarget (0x2000 + j) = some (.ktab j) := by
  unfold offsetTarget
  simp (disch := omega) only [if_neg, if_pos, Nat.add_sub_cancel_left]

/-- The offset of a register or of a word of a window is aligned, and selects it. -/
theorem offsetTarget_targetOffset {t : Target} (h : t.wellFormed = true) :
    targetOffset t % 4 = 0 ∧ offsetTarget (targetOffset t) = some t := by
  cases t with
  | ksrc j =>
    obtain ⟨hal, hlt⟩ := Target.ksrc_wellFormed_iff.1 h
    exact ⟨by simp only [targetOffset]; omega, offsetTarget_ksrc (by omega)⟩
  | ktab j =>
    obtain ⟨hal, hlt⟩ := Target.ktab_wellFormed_iff.1 h
    exact ⟨by simp only [targetOffset]; omega, offsetTarget_ktab (by omega)⟩
  | _ => exact ⟨rfl, rfl⟩

/-- A 32-bit access selects a target exactly at its offset: offset decode and `targetOffset` are inverse on the
well-formed targets. -/
theorem busTarget_four_eq_some_iff {off : Offset} {t : Target} :
    busTarget off 4 = some t ↔ t.wellFormed = true ∧ targetOffset t = off.toNat := by
  rw [busTarget_eq_some]
  constructor
  · rintro ⟨-, hal, ho⟩
    exact ⟨offsetTarget_wellFormed hal ho, (offsetTarget_offset ho).symm⟩
  · rintro ⟨hwf, ho⟩
    obtain ⟨hal, hsel⟩ := offsetTarget_targetOffset hwf
    exact ⟨rfl, ho ▸ hal, ho ▸ hsel⟩

/-- Settles O13: the correspondence at every offset and target. -/
theorem targetsAndOffsetsCorrespond : Obligations.TargetsAndOffsetsCorrespond := fun _ _ =>
  busTarget_four_eq_some_iff

/-- What the bus refuses: another size, a misaligned or a reserved offset (20_memory.md R52, R53; 10_state.md R38). -/
theorem busTarget_eq_none_iff {off : Offset} {size : Nat} :
    busTarget off size = none ↔
      size ≠ 4 ∨ off.toNat % 4 ≠ 0 ∨ (0x0018 ≤ off.toNat ∧ off.toNat ≤ 0x0FFF) ∨ 0x3048 ≤ off.toNat := by
  unfold busTarget
  split
  case isTrue hs => simp [hs]
  case isFalse hs =>
    split
    case isTrue hal => simp [hal]
    case isFalse hal =>
      unfold offsetTarget
      repeat' split
      all_goals simp only [reduceCtorEq, true_iff, false_iff]
      all_goals omega

/-! ### One access, one answer -/

/-- A refused access is answered `BUS_ERROR` and changes nothing (20_memory.md R56). -/
theorem step_of_refused {s : State} {off : Offset} {a : Access} {rest : List Event}
    (hp : s.pending = .txn ⟨off, a⟩ :: rest) (hb : busTarget off a.size = none) :
    step s = .next { s with pending := rest, responses := .busError :: s.responses } := by
  rw [step_of_pending hp]
  cases a with
  | read size =>
    simp only [Access.size] at hb
    simp only [performEvent, transact, hostRead, hb, State.respond]
  | write size data =>
    simp only [Access.size] at hb
    simp only [performEvent, transact, hostWrite, hb, State.respond]

/-- What a read returns depends on the block's own state only. -/
theorem readTarget_block (s : State) (tgt : Target) : readTarget s.block tgt = readTarget s tgt := by
  cases tgt <;> rfl

theorem readTarget_congr {s s' : State} (h : s'.block = s.block) (tgt : Target) :
    readTarget s' tgt = readTarget s tgt := by
  rw [← readTarget_block, h, readTarget_block]

/-- An accepted read goes on exactly with the word its target holds, and records it (20_memory.md R59). -/
theorem step_read_eq_next {s t : State} {off : Offset} {size : Nat} {rest : List Event} {tgt : Target}
    (hp : s.pending = .txn ⟨off, .read size⟩ :: rest) (hb : busTarget off size = some tgt) :
    step s = .next t ↔ ∃ w, readTarget s tgt = .ok w ∧
      t = { s with pending := rest, responses := .data w :: s.responses } := by
  have hread : readTarget { s with pending := rest } tgt = readTarget s tgt := readTarget_congr rfl tgt
  rw [step_of_pending hp]
  simp only [performEvent, transact, hostRead, hb, hread]
  cases readTarget s tgt <;> simp [State.respond, eq_comm]

/-- An accepted write is the write of its target, answered `OK` (20_memory.md R60). -/
theorem step_write {s : State} {off : Offset} {size : Nat} {data : Word} {rest : List Event} {tgt : Target}
    (hp : s.pending = .txn ⟨off, .write size data⟩ :: rest) (hb : busTarget off size = some tgt) :
    step s = answerOk (writeTarget data { s with pending := rest } tgt) := by
  rw [step_of_pending hp]
  simp only [performEvent, transact, hostWrite, hb]

theorem execute_of_decode {w : Word} {i : Instr} (h : decode w = .ok i) (s : State) : execute w s = exec i s := by
  simp only [execute, h]

/-- Settles O5: an accepted write to CMD executes its word, which is the command it decodes to. -/
theorem stepRunsTheDecodedCommand : Obligations.StepRunsTheDecodedCommand := by
  intro s w i rest hp hd
  have hstep : step s = answerOk (exec i { s with pending := rest }) := by
    rw [step_write hp (tgt := .cmd) rfl, ← execute_of_decode hd]
    rfl
  refine ⟨fun t h => ?_, fun r h => ?_, fun r h => ?_⟩ <;> rw [hstep, h] <;> rfl

/-- Settles O7: what the bus refuses is answered `BUS_ERROR`; an accepted read answers data, an accepted write `OK`. -/
theorem busErrorExactlyWhenRefused : Obligations.BusErrorExactlyWhenRefused := by
  intro s off a rest hp
  refine ⟨fun h => step_of_refused hp (busTarget_eq_none_iff.2 h), fun hs hal hres hend t h => ?_⟩
  have hacc : busTarget off a.size ≠ none := fun hb => by have := busTarget_eq_none_iff.1 hb; omega
  obtain ⟨tgt, hb⟩ := Option.ne_none_iff_exists'.1 hacc
  cases a with
  | read size =>
    obtain ⟨w, -, rfl⟩ := (step_read_eq_next hp hb).1 h
    simp
  | write size data =>
    rw [step_write hp hb] at h
    obtain ⟨u, -, rfl⟩ := answerOk_eq_next.1 h
    simp

/-- Settles O11: the answer depends on the block only, and a read leaves the block. -/
theorem readsChangeNothingAndRepeat : Obligations.ReadsChangeNothingAndRepeat := by
  intro s t off size rest hp h
  cases hb : busTarget off size with
  | none =>
    cases (step_of_refused hp hb).symm.trans h
    exact ⟨rfl, fun rest' hrest => ⟨_, _, step_of_refused hrest hb, rfl, rfl⟩⟩
  | some tgt =>
    obtain ⟨w, hw, rfl⟩ := (step_read_eq_next hp hb).1 h
    refine ⟨rfl, fun rest' hrest => ⟨_, _, (step_read_eq_next hrest hb).2 ⟨w, ?_, rfl⟩, rfl, rfl⟩⟩
    rw [← hw]
    exact readTarget_congr rfl tgt

/-! ### `HostRead` in full (20_memory.md R59) -/

/-- A 32-bit read at a target's offset answers the word the target holds. -/
theorem step_read_at {s : State} {off : Offset} {rest : List Event} {w : Word} (tgt : Target)
    (hp : s.pending = .txn ⟨off, .read 4⟩ :: rest) (hwf : tgt.wellFormed = true) (ho : off.toNat = targetOffset tgt)
    (hr : readTarget s tgt = .ok w) :
    step s = .next { s with pending := rest, responses := .data w :: s.responses } :=
  (step_read_eq_next hp (busTarget_four_eq_some_iff.2 ⟨hwf, ho.symm⟩)).2 ⟨w, hr, rfl⟩

/-- STATUS reads `ERR_STICKY` at bit 8 and `LAST_ERR` in bits 3:0 (20_memory.md R57). -/
theorem statusWord_eq_ofNat (sticky : Bool) (err : BitVec 4) :
    statusWord sticky err = BitVec.ofNat 32 (256 * sticky.toNat + err.toNat) := by
  revert sticky err
  decide

/-- The little-endian word is its four bytes side by side, the last one on top (00_scope.md R11). -/
theorem leWord_eq_append (b0 b1 b2 b3 : Byte) : leWord b0 b1 b2 b3 = b3 ++ b2 ++ b1 ++ b0 := by
  apply BitVec.eq_of_getLsbD_eq
  intro i hi
  simp only [leWord, BitVec.getLsbD_or, BitVec.getLsbD_shiftLeft, BitVec.getLsbD_setWidth, BitVec.getLsbD_append]
  interval_cases i <;> simp

/-- A window read returns its four bytes where each holds a value. -/
theorem readWindow_of_bytes {m : Memory} {a : Nat} {b0 b1 b2 b3 : Byte} (stop : Fault) (h0 : m.read a = some b0)
    (h1 : m.read (a + 1) = some b1) (h2 : m.read (a + 2) = some b2) (h3 : m.read (a + 3) = some b3) :
    readWindow m a stop = .ok (b3 ++ b2 ++ b1 ++ b0) := by
  simp only [readWindow, Memory.readWord_eq_some.2 ⟨b0, b1, b2, b3, h0, h1, h2, h3, rfl⟩, leWord_eq_append]

/-- Settles O8: the refused reads, then the target at each offset and the word it holds. -/
theorem hostReadAnswersTheRegisterMap : Obligations.HostReadAnswersTheRegisterMap := by
  intro s off size rest hp
  have refused := fun h => step_of_refused hp (busTarget_eq_none_iff.2 h)
  refine ⟨fun h => refused (h.imp_right .inl), ?_⟩
  rintro rfl
  refine ⟨fun ho => ?cmd, fun ho => ?status, fun ho => ?crcValue, fun ho => ?ksrcLen, fun ho => ?data0,
    fun ho => ?data1, fun k hk b0 b1 b2 b3 ho h0 h1 h2 h3 => ?ksrc, fun w hw b0 b1 b2 b3 ho h0 h1 h2 h3 => ?ktab,
    fun h => refused (.inr (.inr h))⟩
  case cmd => exact step_read_at .cmd hp rfl ho rfl
  case status => exact step_read_at .status hp rfl ho (congrArg _ (statusWord_eq_ofNat _ _))
  case crcValue => exact step_read_at .crcValue hp rfl ho (congrArg _ (BitVec.ofNat_toNat ..).symm)
  case ksrcLen => exact step_read_at .ksrcLen hp rfl ho (congrArg _ (BitVec.ofNat_toNat ..).symm)
  case data0 => exact step_read_at .data0 hp rfl ho rfl
  case data1 => exact step_read_at .data1 hp rfl ho rfl
  case ksrc =>
    exact step_read_at (.ksrc (4 * k)) hp (Target.ksrc_wellFormed_iff.2 (by omega)) ho
      (readWindow_of_bytes _ h0 h1 h2 h3)
  case ktab =>
    exact step_read_at (.ktab (4 * w)) hp (Target.ktab_wellFormed_iff.2 (by omega)) ho
      (readWindow_of_bytes _ h0 h1 h2 h3)

/-! ### `HostWrite` in full (20_memory.md R60) -/

/-- A 32-bit write at a target's offset that goes on is the target's write, answered `OK`. -/
theorem step_write_at {s u : State} {off : Offset} {data : Word} {rest : List Event} (tgt : Target)
    (hp : s.pending = .txn ⟨off, .write 4 data⟩ :: rest) (hwf : tgt.wellFormed = true)
    (ho : off.toNat = targetOffset tgt) (hu : writeTarget data { s with pending := rest } tgt = .next u) :
    step s = .next { u with responses := .ok :: u.responses } := by
  rw [step_write hp (busTarget_four_eq_some_iff.2 ⟨hwf, ho.symm⟩), hu]
  rfl

/-- A written word's bytes in order, and every other byte as it was (00_scope.md R11). -/
theorem Memory.writeWord_bytes (m : Memory) (a : Nat) (v : Word) :
    (m.writeWord a v).read a = some (v.extractLsb' 0 8) ∧ (m.writeWord a v).read (a + 1) = some (v.extractLsb' 8 8) ∧
    (m.writeWord a v).read (a + 2) = some (v.extractLsb' 16 8) ∧
    (m.writeWord a v).read (a + 3) = some (v.extractLsb' 24 8) ∧
    ∀ c, (c < a ∨ a + 4 ≤ c) → (m.writeWord a v).read c = m.read c := by
  simp only [Memory.read_writeWord]
  refine ⟨by simp [byteOf], by simp [byteOf], by simp [byteOf], by simp [byteOf], fun c hc => if_neg (by omega)⟩

/-- Settles O10: the refused writes, then the target at each offset and what its write does. -/
theorem hostWriteFollowsTheRegisterMap : Obligations.HostWriteFollowsTheRegisterMap := by
  intro s off size data rest hp
  have refused := fun h => step_of_refused hp (busTarget_eq_none_iff.2 h)
  refine ⟨fun h => refused (h.imp_right .inl), ?_⟩
  rintro rfl
  refine ⟨fun ho t ht => ?cmd, fun ho => ?status, fun ho => ?crcValue, fun ho => ?ksrcLen, fun ho => ?data0,
    fun ho => ?data1, fun k hk ho => ?ksrc, fun w hw ho => ?ktab, fun h => refused (.inr (.inr h))⟩
  case cmd => exact step_write_at .cmd hp rfl ho ht
  case status =>
    have hclear : (s.errSticky && !data.getLsbD 8) = if data.getLsbD 8 then false else s.errSticky := by
      cases data.getLsbD 8 <;> simp
    rw [← hclear]
    exact step_write_at .status hp rfl ho rfl
  case crcValue => exact step_write_at .crcValue hp rfl ho rfl
  case ksrcLen =>
    rw [← BitVec.setWidth_eq_extractLsb' (by decide)]
    exact step_write_at .ksrcLen hp rfl ho rfl
  case data0 => exact step_write_at .data0 hp rfl ho rfl
  case data1 => exact step_write_at .data1 hp rfl ho rfl
  case ksrc =>
    exact ⟨_, step_write_at (.ksrc (4 * k)) hp (Target.ksrc_wellFormed_iff.2 (by omega)) ho rfl,
      Memory.writeWord_bytes s.ksrc (4 * k) data⟩
  case ktab =>
    exact ⟨_, step_write_at (.ktab (4 * w)) hp (Target.ktab_wellFormed_iff.2 (by omega)) ho rfl,
      Memory.writeWord_bytes s.ktab (4 * w) data⟩

/-! ### A KSRC word holds the latest write to it (20_memory.md R65) -/

/-- The event is neither a reset nor a 32-bit write at the offset of word `k` of `KSRC`. -/
def Event.SparesKsrcWord (k : Nat) (e : Event) : Prop :=
  e ≠ .reset ∧ ∀ d, e ≠ .txn ⟨BitVec.ofNat 14 (0x1000 + 4 * k), .write 4 d⟩

/-- An accepted write of another target leaves word `k` of `KSRC`: the words of the window do not overlap. -/
theorem writeTarget_keeps_ksrcWord {data : Word} {s u : State} {tgt : Target} {k : Nat} (hwf : tgt.wellFormed = true)
    (hne : tgt ≠ .ksrc (4 * k)) (h : writeTarget data s tgt = .next u) :
    u.ksrc.readWord (4 * k) = s.ksrc.readWord (4 * k) := by
  by_cases hkeep : u.ksrc = s.ksrc
  · rw [hkeep]
  · obtain ⟨j, rfl⟩ := (writeTarget_writesOnlyItsElements h).ksrc hkeep
    obtain ⟨hal, -⟩ := Target.ksrc_wellFormed_iff.1 hwf
    have hj : j ≠ 4 * k := fun hj => hne (congrArg _ hj)
    cases h
    exact Memory.readWord_writeWord_other _ _ (by omega)

/-- A step that takes such an event leaves word `k` of `KSRC`. -/
theorem step_keeps_ksrcWord {s t : State} {k : Nat} {e : Event} {rest : List Event} (hp : s.pending = e :: rest)
    (he : e.SparesKsrcWord k) (h : step s = .next t) : t.ksrc.readWord (4 * k) = s.ksrc.readWord (4 * k) := by
  obtain ⟨hreset, hwrite⟩ := he
  rcases step_next h with ⟨-, rfl⟩ | ⟨_, hp', -⟩ | ⟨_, _, _, _, -, rfl⟩ | ⟨_, _, _, _, -, -, rfl⟩ |
    ⟨off, data, _, tgt, u, hp', hb, hu, rfl⟩
  · rfl
  · cases hp.symm.trans hp'
    exact absurd rfl hreset
  · rfl
  · rfl
  · cases hp.symm.trans hp'
    obtain ⟨hwf, -⟩ := busTarget_four_eq_some_iff.1 hb
    have hne : tgt ≠ .ksrc (4 * k) := fun htgt => hwrite data (by rw [busTarget_offset hb, htgt]; rfl)
    rw [State.respond_ksrc, writeTarget_keeps_ksrcWord hwf hne hu]

/-- The offset of word `k` of `KSRC` selects that word. -/
theorem busTarget_ksrcWord {k : Nat} (hk : k < 1024) :
    busTarget (BitVec.ofNat 14 (0x1000 + 4 * k)) 4 = some (.ksrc (4 * k)) := by
  refine busTarget_four_eq_some_iff.2 ⟨Target.ksrc_wellFormed_iff.2 (by omega), ?_⟩
  rw [BitVec.toNat_ofNat, Nat.mod_eq_of_lt (by omega)]
  rfl

/-- A run over such events and then a read of the word answers with what the word holds at its start. -/
theorem core_run_reads_kept_ksrcWord {s t : State} {k : Nat} {v : Word} {evs : List Event} (hk : k < 1024)
    (hp : s.pending = evs ++ [.txn ⟨BitVec.ofNat 14 (0x1000 + 4 * k), .read 4⟩])
    (hevs : ∀ e ∈ evs, e.SparesKsrcWord k) (hv : s.ksrc.readWord (4 * k) = some v)
    (h : core.run (evs.length + 1) s = .next t) : t.responses.head? = some (.data v) := by
  induction evs generalizing s with
  | nil =>
    obtain ⟨u, hu, hrun⟩ := core_run_succ_eq_next.1 h
    cases hrun
    have hread : readTarget s (.ksrc (4 * k)) = .ok v := by simp only [readTarget, readWindow, hv]
    cases hu.symm.trans ((step_read_eq_next hp (busTarget_ksrcWord hk)).2 ⟨v, hread, rfl⟩)
    rfl
  | cons e evs ih =>
    obtain ⟨he, hevs⟩ := List.forall_mem_cons.1 hevs
    obtain ⟨u, hu, hrun⟩ := core_run_succ_eq_next.1 h
    refine ih ?_ hevs ((step_keeps_ksrcWord hp he hu).trans hv) hrun
    rw [step_pending hu, hp]
    rfl

/-- Settles O12: the accepted write makes the word hold `v`, and the rest of the run keeps and reads it. -/
theorem ksrcReadReturnsTheLatestWrite : Obligations.KsrcReadReturnsTheLatestWrite := by
  intro s t k v evs hk hevs h
  obtain ⟨u, hu, hrun⟩ := core_run_succ_eq_next.1 h
  rw [step_write rfl (busTarget_ksrcWord hk)] at hu
  cases hu
  exact core_run_reads_kept_ksrcWord hk rfl hevs (Memory.readWord_writeWord_same s.ksrc (4 * k) v) hrun

end Sys2Proof.Machine
end

section
/-! The encoding (30_encoding.md): decoder and encoder are inverse, the rows of the opcode map decide the command, the
illegal words, and what the pseudo-instruction `KSRC.LOAD` leaves. -/

namespace Sys2Proof

/-! ### Decoder and encoder (30_encoding.md R80, R84) -/

@[simp] theorem decode_encode (i : Instr) : decode (encode i) = .ok i := by
  cases i <;> simp [decode_eq_ok, encode]

/-- A command has exactly one word: the decoder reads it from that word and from no other. -/
theorem decode_eq_ok_iff_encode {w : Word} {i : Instr} : decode w = .ok i ↔ encode i = w :=
  ⟨fun h => (Machine.eq_encode_of_decode h).symm, fun h => h ▸ decode_encode i⟩

/-- Settles O1: every command comes back from its word, and a word that decodes is its command's. -/
theorem decodeInvertsEncode : Obligations.DecodeInvertsEncode := fun _ _ _ =>
  decode_eq_ok_iff_encode

/-! ### The rows of the opcode map (30_encoding.md R84) -/

theorem cmdOp_and (w m : Word) : cmdOp (w &&& m) = cmdOp w &&& cmdOp m := BitVec.extractLsb'_and

theorem cmdArg_and (w m : Word) : cmdArg (w &&& m) = cmdArg w &&& cmdArg m := BitVec.extractLsb'_and

theorem cmdRsvd_and (w m : Word) : cmdRsvd (w &&& m) = cmdRsvd w &&& cmdRsvd m := BitVec.extractLsb'_and

/-- Under a mask of all ones only the pattern itself matches. -/
theorem and_mask_eq_iff_decode {w pattern : Word} {i : Instr} (h : encode i = pattern) :
    w &&& 0xFFFFFFFF = pattern ↔ decode w = .ok i := by
  rw [decode_eq_ok_iff_encode, h, show (0xFFFFFFFF : Word) = BitVec.allOnes 32 from rfl, BitVec.and_allOnes, eq_comm]

/-- The mask of `CRC_UPDATE` leaves `RSVD` and `OP`, and clears `ARG`. -/
theorem and_updateMask_eq_iff_fields {w : Word} :
    w &&& 0xFFFF00FF = 0x00000002 ↔ cmdRsvd w = 0 ∧ cmdOp w = 0x02 := by
  have hop : cmdOp (w &&& 0xFFFF00FF) = cmdOp w := by rw [cmdOp_and]; exact BitVec.and_allOnes
  have harg : cmdArg (w &&& 0xFFFF00FF) = 0 := by rw [cmdArg_and]; exact BitVec.and_zero
  have hrsvd : cmdRsvd (w &&& 0xFFFF00FF) = cmdRsvd w := by rw [cmdRsvd_and]; exact BitVec.and_allOnes
  constructor
  · intro h
    rw [← hrsvd, ← hop, h]
    decide
  · rintro ⟨hr, ho⟩
    rw [← cmdWord_of_fields (hrsvd.trans hr), hop, harg, ho]
    decide

theorem decode_eq_crcUpdate_iff {w : Word} {b : Byte} :
    decode w = .ok (.crcUpdate b) ↔ (cmdRsvd w = 0 ∧ cmdOp w = 0x02) ∧ b = cmdArg w := by
  simp [decode_eq_ok, and_assoc]

/-- The masks all keep the whole of `OP`, so a word that matches a row has the row's `OP`. -/
theorem OpRow.cmdOp_eq_of_matchesWord {r : OpRow} {w : Word} (hr : r ∈ opcodeMap) (h : r.matchesWord w = true) :
    cmdOp w = cmdOp r.pattern := by
  have hmask : ∀ r ∈ opcodeMap, cmdOp r.mask = BitVec.allOnes 8 := by decide
  rw [← eq_of_beq h, cmdOp_and, hmask r hr, BitVec.and_allOnes]

/-- No two rows of the opcode map have the same `OP`. -/
theorem OpRow.eq_of_cmdOp_eq : ∀ r ∈ opcodeMap, ∀ r' ∈ opcodeMap, cmdOp r.pattern = cmdOp r'.pattern → r = r' := by
  decide

/-- Settles O2: a full mask leaves one word, `CRC_UPDATE`'s leaves `ARG` free, and the rows differ in `OP`. -/
theorem opcodeMapRowsDecideTheCommand : Obligations.OpcodeMapRowsDecideTheCommand := by
  intro w
  refine ⟨and_mask_eq_iff_decode (by decide), ?update, ?byte, and_mask_eq_iff_decode (by decide),
    and_mask_eq_iff_decode (by decide), and_mask_eq_iff_decode (by decide), fun r hr r' hr' h h' => ?disjoint⟩
  case update => rw [and_updateMask_eq_iff_fields]; simp [decode_eq_crcUpdate_iff]
  case byte => exact fun h => decode_eq_crcUpdate_iff.2 ⟨and_updateMask_eq_iff_fields.1 h, rfl⟩
  case disjoint =>
    refine OpRow.eq_of_cmdOp_eq r hr r' hr' ?_
    rw [← OpRow.cmdOp_eq_of_matchesWord hr h, OpRow.cmdOp_eq_of_matchesWord hr' h']

/-! ### The illegal words (30_encoding.md R86) -/

/-- A word is a command exactly when it passes the checks of R83 and R84. -/
theorem exists_decode_eq_ok_iff {w : Word} :
    (∃ i, decode w = .ok i) ↔
      cmdRsvd w = 0 ∧ cmdOp w ∈ ([0x01, 0x02, 0x10, 0x20, 0x21] : List Byte) ∧
        (cmdOp w ∈ ([0x01, 0x10, 0x20, 0x21] : List Byte) → cmdArg w = 0) := by
  simp only [decode_eq_ok, List.mem_cons, List.not_mem_nil, or_false]
  constructor
  · rintro ⟨i, hr, ⟨ho, ha, -⟩ | ⟨ho, -⟩ | ⟨ho, ha, -⟩ | ⟨ho, ha, -⟩ | ⟨ho, ha, -⟩⟩ <;> simp [*]
  · rintro ⟨hr, ho | ho | ho | ho | ho, ha⟩ <;> simp_all

/-- A word that is no command is an error: the decoder is total. -/
theorem exists_decode_eq_error_iff {w : Word} : (∃ e, decode w = .error e) ↔ ¬ ∃ i, decode w = .ok i := by
  cases decode w <;> simp

/-- An illegal word raises `IllegalCommand`, which touches STATUS only (60_exceptions.md R174). -/
theorem execute_of_illegal {w : Word} {e : IllegalWord} (h : decode w = .error e) (s : Machine.State) :
    Machine.execute w s = .next { s with lastErr := 2, errSticky := true } := by
  rcases Machine.execute_cases w s with ⟨i, hi, -⟩ | ⟨e', -, he⟩
  · cases h.symm.trans hi
  · rw [he, Machine.State.complete, Machine.ErrorCode.illegalCommand_failed, Bool.or_true]
    rfl

/-- Settles O3: the illegal words are those that fail a check, and executing one raises `IllegalCommand`. -/
theorem illegalWordsAreExactlyTheListedOnes : Obligations.IllegalWordsAreExactlyTheListedOnes := by
  refine ⟨fun w => ?_, fun w e s h => execute_of_illegal h s, _, rfl⟩
  rw [exists_decode_eq_error_iff, exists_decode_eq_ok_iff, not_and_or, not_and_or, Classical.not_imp]
  rfl

/-- Settles O4: the nine words, decoded. -/
theorem writtenWordsDecodeAsTheTableSays : Obligations.WrittenWordsDecodeAsTheTableSays := by
  unfold Obligations.WrittenWordsDecodeAsTheTableSays
  decide

end Sys2Proof

namespace Sys2Proof.Machine

/-! ### `KSRC.LOAD` (30_encoding.md R90) -/

/-- The write of word `k` of the byte sequence `bs` to its place in the KSRC window. -/
def ksrcLoadEvent (bs : List Byte) (k : Nat) : Event := .wr (BitVec.ofNat 14 (0x1000 + 4 * k)) (loadWord bs k)

/-- The memory after the listed words of `bs` have been written to it, in order. -/
def Memory.loadWords (bs : List Byte) : List Nat → Memory → Memory
  | [], m => m
  | k :: ks, m => Memory.loadWords bs ks (m.writeWord (4 * k) (loadWord bs k))

theorem ksrcLoad_events (bs : List Byte) :
    (Pseudo.ksrcLoad bs).events = (List.range 1024).map (ksrcLoadEvent bs) ++ [.wr 0x000C 0x1000] := by
  simp only [Pseudo.events, Pseudo.expand, List.map_append, List.map_map]
  rfl

/-- Byte `j` of a loaded word is the sequence's byte at its place. -/
theorem byteOf_loadWord (bs : List Byte) (k : Nat) {j : Nat} (hj : j < 4) :
    byteOf (loadWord bs k) j = byteAt bs (4 * k + j) := by
  interval_cases j
  · exact byteOf_leWord_zero ..
  · exact byteOf_leWord_one ..
  · exact byteOf_leWord_two ..
  · exact byteOf_leWord_three ..

/-- Loading writes exactly the bytes of the listed words, each with the sequence's byte. -/
theorem Memory.read_loadWords (bs : List Byte) (ks : List Nat) (m : Memory) (i : Nat) :
    (Memory.loadWords bs ks m).read i = if i / 4 ∈ ks then some (byteAt bs i) else m.read i := by
  induction ks generalizing m with
  | nil => simp [Memory.loadWords]
  | cons k ks ih =>
    rw [Memory.loadWords, ih, Memory.read_writeWord]
    by_cases hk : i / 4 = k
    · have hbyte : byteOf (loadWord bs k) (i - 4 * k) = byteAt bs i := by
        rw [byteOf_loadWord bs k (by omega), Nat.add_sub_cancel' (by omega)]
      rw [if_pos (show 4 * k ≤ i ∧ i < 4 * k + 4 by omega), hbyte]
      simp [hk]
    · rw [if_neg (show ¬ (4 * k ≤ i ∧ i < 4 * k + 4) by omega)]
      simp [hk]

theorem Memory.loadWords_wf {bs : List Byte} {ks : List Nat} {m : Memory} (hks : ∀ k ∈ ks, k < 1024)
    (h : m.wf Config.ksrcSize) : (Memory.loadWords bs ks m).wf Config.ksrcSize := by
  induction ks generalizing m with
  | nil => exact h
  | cons k ks ih =>
    obtain ⟨hk, hks⟩ := List.forall_mem_cons.1 hks
    exact ih hks (Memory.writeWord_wf _ h (by simp only [Config.ksrcSize]; omega))

/-- A run over the writes of the listed words and then of `KSRC_LEN` completes: each is accepted and answered `OK`. -/
theorem core_run_ksrcLoad {bs : List Byte} {ks : List Nat} (hks : ∀ k ∈ ks, k < 1024) (s : State) :
    core.run (ks.length + 1) { s with pending := ks.map (ksrcLoadEvent bs) ++ [.wr 0x000C 0x1000] } =
      .next { s with
        ksrc := Memory.loadWords bs ks s.ksrc
        ksrcLen := 0x1000
        pending := []
        responses := List.replicate (ks.length + 1) .ok ++ s.responses } := by
  induction ks generalizing s with
  | nil =>
    rw [List.length_nil, core_run_succ (step_write_at .ksrcLen rfl rfl rfl rfl)]
    rfl
  | cons k ks ih =>
    obtain ⟨hk, hks⟩ := List.forall_mem_cons.1 hks
    rw [List.length_cons, core_run_succ (step_write rfl (busTarget_ksrcWord hk)), List.replicate_succ',
      List.append_assoc]
    exact ih hks { s with ksrc := s.ksrc.writeWord (4 * k) (loadWord bs k), responses := .ok :: s.responses }

/-- Settles O44: the 1024 word writes load every byte of the window, and the last write sets the length. -/
theorem ksrcLoadFillsTheKeySource : Obligations.KsrcLoadFillsTheKeySource := by
  intro s bs hs hlen
  have hks : ∀ k ∈ List.range 1024, k < 1024 := fun _ => List.mem_range.1
  refine ⟨Memory.loadWords bs (List.range 1024) s.ksrc, ?_, Memory.loadWords_wf hks hs.ksrc_wf, fun i hi => ?_⟩
  · rw [ksrcLoad_events]
    simpa only [List.length_range] using core_run_ksrcLoad hks s
  · rw [Memory.read_loadWords, if_pos (List.mem_range.2 (by omega)), getElem?_eq_byteAt (by omega)]

end Sys2Proof.Machine
end

section
/-! The CRC generator (40_crc16.md): the one-byte step and its linearity, the checksum with its own appended, the two
commands, the pseudo-instruction `CRC16`, and `CRC` as the checksum of the bytes updated since `CRC_INIT`. -/

namespace Sys2Proof.Machine

/-! ### The bit loop (40_crc16.md R101) -/

theorem crcBit_of_lsb_false {c : Half} (h : c.getLsbD 0 = false) : crcBit c = c >>> 1 := by
  rw [crcBit, h]
  rfl

/-- What a bit adds to the shift depends on the bit shifted out only. -/
theorem crcBit_eq_xor (c : Half) : crcBit c = (c >>> 1) ^^^ (if c.getLsbD 0 then crcPoly else 0) := by
  unfold crcBit
  split <;> simp

theorem crcBit_xor (c d : Half) : crcBit (c ^^^ d) = crcBit c ^^^ crcBit d := by
  have hpoly : ∀ x y : Bool, (if x ^^ y then crcPoly else 0) =
      (if x then crcPoly else 0) ^^^ (if y then crcPoly else 0) := by decide
  simp only [crcBit_eq_xor, BitVec.getLsbD_xor, BitVec.ushiftRight_xor_distrib, hpoly]
  ac_rfl

theorem crcBits_xor (n : Nat) (c d : Half) : crcBits n (c ^^^ d) = crcBits n c ^^^ crcBits n d := by
  induction n generalizing c d with
  | zero => rfl
  | succ n ih => rw [crcBits, crcBit_xor, ih]; rfl

/-- Settles O16: the byte enters by XOR, and the bit loop is linear. -/
theorem crcStepIsLinear : Obligations.CrcStepIsLinear := by
  intro c d a b
  calc crcStep (c ^^^ d) (a ^^^ b)
      = crcBits 8 ((c ^^^ a.setWidth 16) ^^^ (d ^^^ b.setWidth 16)) := by
        rw [crcStep, BitVec.setWidth_xor]; ac_rfl
    _ = crcStep c a ^^^ crcStep d b := crcBits_xor ..

/-! ### A message with its own checksum (40_crc16.md R103) -/

/-- As long as zeros are shifted out, the bit loop only shifts. -/
theorem crcBits_of_low_zero {n : Nat} {c : Half} (h : ∀ i < n, c.getLsbD i = false) : crcBits n c = c >>> n := by
  induction n generalizing c with
  | zero => simp [crcBits]
  | succ n ih =>
    have hshift : ∀ i < n, (c >>> 1).getLsbD i = false := fun i hi => by
      rw [BitVec.getLsbD_ushiftRight]
      exact h _ (by omega)
    rw [crcBits, crcBit_of_lsb_false (h 0 n.succ_pos), ih hshift, ← BitVec.shiftRight_add, Nat.add_comm]

/-- Folding in its own low byte cancels it and leaves the high byte. -/
theorem crcStep_low_byte (c : Half) : crcStep c (c.extractLsb' 0 8) = (c.extractLsb' 8 8).setWidth 16 := by
  have hlow : ∀ i < 8, (c ^^^ (c.extractLsb' 0 8).setWidth 16).getLsbD i = false := fun i hi => by
    simp [hi, show i < 16 by omega]
  rw [crcStep, crcBits_of_low_zero hlow]
  apply BitVec.eq_of_getLsbD_eq
  intro i hi
  simp only [BitVec.getLsbD_ushiftRight, BitVec.getLsbD_xor, BitVec.getLsbD_setWidth, BitVec.getLsbD_extractLsb']
  by_cases h8 : i < 8
  · simp [h8, hi]
  · simp [h8, BitVec.getLsbD_of_ge c (8 + i) (by omega)]

/-- A register that holds just the byte folded in comes to 0. -/
theorem crcStep_same_byte (b : Byte) : crcStep (b.setWidth 16) b = 0 := by
  rw [crcStep, BitVec.xor_self]
  decide

/-- Settles O17: the low byte leaves the high byte in the register, which the high byte cancels. -/
theorem appendedChecksumGivesZero : Obligations.AppendedChecksumGivesZero := by
  intro bs
  calc crc16 (bs ++ crcField (crc16 bs))
      = crcStep (crcStep (crc16 bs) ((crc16 bs).extractLsb' 0 8)) ((crc16 bs).extractLsb' 8 8) := by
        rw [crc16, List.foldl_append]; rfl
    _ = 0 := by rw [crcStep_low_byte, crcStep_same_byte]

/-- Settles O18: the three checksums, evaluated. -/
theorem crcMatchesThePublishedVectors : Obligations.CrcMatchesThePublishedVectors := by
  refine ⟨rfl, ?_, ?_⟩
  · simp [crc16, crcStep, crcBits, crcBit, crcInitial, crcPoly]
  · simp [crc16, crcStep, crcBits, crcBit, crcInitial, crcPoly, crcField]

/-! ### The two commands (40_crc16.md R104, R105) -/

theorem exec_crcInit (s : State) : exec .crcInit s = .next { s with crc := 0xFFFF, lastErr := 0 } := by
  rw [show exec .crcInit s = .next ({ s with crc := crcInitial }.complete .none) from rfl]
  simp [State.complete, crcInitial]

theorem exec_crcUpdate (b : Byte) (s : State) :
    exec (.crcUpdate b) s = .next { s with crc := crcStep s.crc b, lastErr := 0 } := by
  rw [show exec (.crcUpdate b) s = .next ({ s with crc := crcStep s.crc b }.complete .none) from rfl]
  simp [State.complete]

/-- A word that is no command raises `IllegalCommand`, which touches STATUS only (60_exceptions.md R174). -/
theorem execute_of_no_command {w : Word} (h : ∀ i, decode w ≠ .ok i) (s : State) :
    execute w s = .next { s with lastErr := 2, errSticky := true } := by
  obtain ⟨e, he⟩ := exists_decode_eq_error_iff.2 (not_exists.2 h)
  exact execute_of_illegal he s

/-- Settles O14: the command's next state, its word, and that its `OP` has no other word. -/
theorem crcInitLoadsTheInitialValue : Obligations.CrcInitLoadsTheInitialValue := by
  refine ⟨exec_crcInit, by decide, fun w s hop hw => execute_of_no_command (fun i hd => hw ?_) s⟩
  have hop : cmdOp w = 0x01 := hop
  obtain ⟨-, rfl⟩ : cmdArg w = 0 ∧ i = .crcInit := by simpa [hop] using (decode_eq_ok.1 hd).2
  exact eq_encode_of_decode hd

/-- The bit loop of the model is the spec's, written with the parity of the register. -/
theorem crcBits_eq_iterate (n : Nat) (c : Half) :
    crcBits n c = Nat.iterate (fun c : Half => if c.toNat % 2 = 1 then (c >>> 1) ^^^ 0xA001 else c >>> 1) n c := by
  induction n generalizing c with
  | zero => rfl
  | succ n ih =>
    have hbit : crcBit c = if c.toNat % 2 = 1 then (c >>> 1) ^^^ 0xA001 else c >>> 1 := by
      simp [crcBit, crcPoly, BitVec.getLsbD]
    rw [crcBits, ih, hbit]
    rfl

/-- A command word by number: `OP` at bit 0, `ARG` at bit 8 (30_encoding.md R80). -/
theorem cmdWord_eq_ofNat (op arg : Byte) : cmdWord op arg = BitVec.ofNat 32 (op.toNat + 256 * arg.toNat) := by
  have hop := op.isLt
  have harg := arg.isLt
  have hor : op.toNat ||| arg.toNat * 2 ^ 8 = op.toNat + 256 * arg.toNat := by
    rw [← Nat.shiftLeft_eq, Nat.or_comm, ← Nat.shiftLeft_add_eq_or_of_lt hop, Nat.shiftLeft_eq]
    omega
  apply BitVec.eq_of_toNat_eq
  simp (disch := omega) only [cmdWord, BitVec.toNat_or, BitVec.toNat_shiftLeft, BitVec.toNat_setWidth,
    BitVec.toNat_ofNat, Nat.mod_eq_of_lt, Nat.shiftLeft_eq, hor]

/-- Settles O15: the command's next state with the bit loop written out, its word, and that `RSVD` must be 0. -/
theorem crcUpdateFoldsOneByte : Obligations.CrcUpdateFoldsOneByte := by
  refine ⟨fun s b => ?_, fun b => ?_, fun w s _ hrsvd => execute_of_no_command (fun i hd => ?_) s⟩
  · rw [exec_crcUpdate, crcStep, crcBits_eq_iterate, BitVec.ofNat_toNat]
  · exact decode_eq_ok_iff_encode.2 (cmdWord_eq_ofNat 0x02 b)
  · exact hrsvd (decode_eq_ok.1 hd).1

/-! ### `CRC16 b1, ..., bn` (30_encoding.md R90) -/

/-- The CMD write of a command's word runs the command, answered `OK`. -/
theorem step_command {s : State} {rest : List Event} (i : Instr) (hp : s.pending = .command (encode i) :: rest) :
    step s = answerOk (exec i { s with pending := rest }) := by
  rw [step_write (tgt := .cmd) hp rfl, writeTarget, execute_of_decode (decode_encode i)]

/-- The CMD writes of `CRC_UPDATE` for the listed bytes, and then the read of CRC_VALUE. -/
def crcUpdateEvents : List Byte → List Event
  | [] => [.rd 0x0008]
  | b :: bs => .command (encode (.crcUpdate b)) :: crcUpdateEvents bs

theorem crc16_events (bs : List Byte) :
    (Pseudo.crc16 bs).events = .command (encode .crcInit) :: crcUpdateEvents bs := by
  have hupdates : (bs.map (fun b => commandLine (.crcUpdate b)) ++ [HostLine.rd (.named .crcValue) none]).map
      HostLine.event = crcUpdateEvents bs := by
    induction bs with
    | nil => rfl
    | cons b bs ih => exact congrArg _ ih
  exact congrArg _ hupdates

/-- A run over these events completes: each update is answered `OK`, and the read returns the register with all the
bytes folded in. -/
theorem core_run_crcUpdateEvents (bs : List Byte) {s : State} (hs : s.lastErr = 0) :
    core.run (bs.length + 1) { s with pending := crcUpdateEvents bs } =
      .next { s with
        crc := bs.foldl crcStep s.crc
        pending := []
        responses :=
          .data ((bs.foldl crcStep s.crc).setWidth 32) :: (List.replicate bs.length .ok ++ s.responses) } := by
  induction bs generalizing s with
  | nil => exact core_run_succ (step_read_at .crcValue rfl rfl rfl rfl)
  | cons b bs ih =>
    have hstep := step_command (s := { s with pending := crcUpdateEvents (b :: bs) }) (.crcUpdate b) rfl
    rw [exec_crcUpdate, answerOk_next] at hstep
    rw [List.length_cons, core_run_succ hstep, List.replicate_succ', List.append_assoc, ← hs]
    exact ih (s := { s with crc := crcStep s.crc b, responses := .ok :: s.responses }) hs

/-- Settles O19: the initialisation loads the initial value, and the updates fold the bytes into it. -/
theorem crcMacroReturnsTheChecksum : Obligations.CrcMacroReturnsTheChecksum := by
  intro s bs
  have hstep := step_command (s := { s with pending := (Pseudo.crc16 bs).events }) .crcInit (crc16_events bs)
  rw [exec_crcInit, answerOk_next] at hstep
  rw [core_run_succ hstep, List.replicate_succ', List.append_assoc, BitVec.ofNat_toNat]
  exact core_run_crcUpdateEvents bs (s := { s with crc := 0xFFFF, lastErr := 0, responses := .ok :: s.responses }) rfl

/-! ### `CRC` follows its updates only (40_crc16.md R106) -/

/-- The byte an event folds into the running checksum: that of an accepted write of a `CRC_UPDATE` word to CMD. -/
def Event.updateByte : Event → Option Byte
  | .txn ⟨off, .write size w⟩ =>
    if off = 0x0000 ∧ size = 4 ∧ w &&& 0xFFFF00FF = 0x00000002 then some (cmdArg w) else none
  | .txn ⟨_, .read _⟩ => none
  | .reset => none

/-- CMD is written by a 32-bit write at offset 0 only (10_state.md R31). -/
theorem busTarget_eq_cmd_iff {off : Offset} {size : Nat} :
    busTarget off size = some .cmd ↔ off = 0x0000 ∧ size = 4 :=
  ⟨fun h => ⟨busTarget_offset h, (busTarget_eq_some.1 h).1⟩, by rintro ⟨rfl, rfl⟩; rfl⟩

/-- Every word but that of `CRC_INIT` leaves `CRC`, or folds in its byte if it is one of `CRC_UPDATE`. -/
theorem crcAfterWord_of_ne_init {w : Word} (hw : w ≠ 0x00000001) (c : Half) :
    crcAfterWord c w = if w &&& 0xFFFF00FF = 0x00000002 then crcStep c (cmdArg w) else c := by
  split
  case isTrue hu =>
    have hd : decode w = .ok (.crcUpdate (cmdArg w)) :=
      decode_eq_crcUpdate_iff.2 ⟨and_updateMask_eq_iff_fields.1 hu, rfl⟩
    simp only [crcAfterWord, hd, crcAfterCommand]
  case isFalse hu =>
    cases hd : decode w with
    | error e => simp only [crcAfterWord, hd]
    | ok i =>
      simp only [crcAfterWord, hd]
      cases i with
      | crcInit => exact absurd (eq_encode_of_decode hd) hw
      | crcUpdate b => exact absurd (and_updateMask_eq_iff_fields.2 (decode_eq_crcUpdate_iff.1 hd).1) hu
      | _ => rfl

/-- An event that is neither a reset nor the write of `CRC_INIT` folds its byte, if it has one, into `CRC`. -/
theorem crcAfterEvent_eq_updateByte {e : Event} (hreset : e ≠ .reset)
    (hinit : e ≠ .txn ⟨0x0000, .write 4 0x00000001⟩) (c : Half) : crcAfterEvent c e = e.updateByte.elim c (crcStep c) := by
  rcases e with ⟨off, size | ⟨size, w⟩⟩ | _
  · rfl
  · simp only [crcAfterEvent, Event.updateByte, busTarget_eq_cmd_iff]
    by_cases hcmd : off = 0x0000 ∧ size = 4
    · obtain ⟨rfl, rfl⟩ := hcmd
      have hw : w ≠ 0x00000001 := by rintro rfl; exact hinit rfl
      simp only [true_and, if_true, crcAfterWord_of_ne_init hw]
      split <;> rfl
    · rw [if_neg hcmd, if_neg (fun h => hcmd ⟨h.1, h.2.1⟩)]
      rfl
  · exact absurd rfl hreset

/-- Over such events `CRC` is the fold of the step over their bytes in order. -/
theorem foldl_crcAfterEvent {evs : List Event}
    (h : ∀ e ∈ evs, e ≠ .reset ∧ e ≠ .txn ⟨0x0000, .write 4 0x00000001⟩) (c : Half) :
    evs.foldl crcAfterEvent c = (evs.filterMap Event.updateByte).foldl crcStep c := by
  induction evs generalizing c with
  | nil => rfl
  | cons e evs ih =>
    obtain ⟨⟨hreset, hinit⟩, hevs⟩ := List.forall_mem_cons.1 h
    rw [List.foldl_cons, ih hevs, crcAfterEvent_eq_updateByte hreset hinit]
    cases hb : e.updateByte with
    | none => rw [List.filterMap_cons_none hb]; rfl
    | some b => rw [List.filterMap_cons_some hb]; rfl

/-- Settles O20: a run folds its events over `CRC`; the first loads the initial value, the rest fold in their bytes. -/
theorem crcFollowsItsUpdatesOnly : Obligations.CrcFollowsItsUpdatesOnly := by
  intro s t evs hevs hrun
  have hfold : t.crc = (List.take (evs.length + 1) (.command 0x00000001 :: evs)).foldl crcAfterEvent s.crc :=
    core_run_crc hrun
  show t.crc = crc16 (evs.filterMap Event.updateByte)
  calc t.crc = evs.foldl crcAfterEvent crcInitial := by rw [hfold, List.take_of_length_le (by simp)]; rfl
    _ = crc16 (evs.filterMap Event.updateByte) := foldl_crcAfterEvent hevs _

end Sys2Proof.Machine
end

section
/-! The key-table engine (41_keytable.md): what `KT_BUILD` answers, the bytes of the table it builds, and that the table
depends on the key source only. -/

namespace Sys2Proof.Machine

/-! ### The command (41_keytable.md R120, R121) -/

/-- A build of another declared length is refused, which touches STATUS only (R121). -/
theorem exec_ktBuild_of_ne {s : State} (hl : s.ksrcLen ≠ 0x1000) :
    exec .ktBuild s = .next { s with lastErr := 1, errSticky := true } := by
  have hrefused : exec .ktBuild s = .next (s.raise .invalidInputSize) := if_pos hl
  rw [hrefused, State.raise_eq_complete, State.complete, ErrorCode.invalidInputSize_failed, Bool.or_true]
  rfl

/-- A build that passes its size check goes on exactly when it can consume the key source, and then to one state: `KTAB`
holds the key table, and the code is 0. -/
theorem exec_ktBuild_eq_next_iff {s t : State} (hl : s.ksrcLen = 0x1000) :
    exec .ktBuild s = .next t ↔
      ∃ ks, s.keySource = some ks ∧ t = { s with ktab := Memory.ofBytes (keyTable ks), lastErr := 0 } := by
  show execKtBuild s = .next t ↔ _
  rcases execKtBuild_cases s with ⟨hne, -⟩ | ⟨-, hks, he⟩ | ⟨-, ks, hks, he⟩
  · exact absurd hl hne
  · simp [he, hks]
  · simp [he, hks, State.complete, eq_comm]

/-- `InvalidInputSize` is the completion code of a `KT_BUILD` of another declared length only (60_exceptions.md R173). -/
theorem completionCode_bits_eq_one {i : Instr} {s : State} (h : (completionCode i s).bits = 1) :
    i = .ktBuild ∧ s.ksrcLen ≠ 0x1000 := by
  unfold completionCode at h
  split at h
  case isTrue hbuild => exact hbuild
  case isFalse => exact absurd h (by decide)

/-- Settles O22: the refused build, and that a command that goes on leaves its completion code in `LAST_ERR`. -/
theorem ktBuildRefusesOtherLengths : Obligations.KtBuildRefusesOtherLengths := by
  refine ⟨fun s hl => exec_ktBuild_of_ne hl, fun i s t h herr => ?_⟩
  obtain ⟨c, k, d0, d1, rfl, -⟩ := exec_next h
  exact completionCode_bits_eq_one herr

/-! ### The bytes of the key table (41_keytable.md R122, R123) -/

/-- Where the source holds `b` at header position `x`, the table holds there what the source holds at
`0x100 * (x mod 16) + b` (R122). -/
theorem read_keyTable_header {ks : List Byte} (hlen : ks.length = Config.ksrcSize) {x : Nat}
    (hx : x < Config.headerSize) {b : Byte} (hb : (Memory.ofBytes ks).read x = some b) :
    (Memory.ofBytes (keyTable ks)).read x = (Memory.ofBytes ks).read (0x100 * (x % 16) + b.toNat) := by
  rw [Memory.read_ofBytes] at hb
  rw [Memory.read_ofBytes, Memory.read_ofBytes, keyTable_header hlen hx, headerIndex, byteAt_eq_of_getElem? hb]

/-- Settles O21: the source can be consumed, so the build goes on, and its table's bytes are the model's key table. -/
theorem ktBuildDerivesTheKeyTable : Obligations.KtBuildDerivesTheKeyTable := by
  intro s hs hl hwritten
  obtain ⟨ks, hks⟩ := Option.isSome_iff_exists.1 ((State.keySource_isSome_iff hs).2 hwritten)
  obtain ⟨hlen, hsrc⟩ := State.keySource_eq_some.1 hks
  have hsize : (keyTable ks).length = 0x1048 := by rw [keyTable_length, hlen]; rfl
  refine ⟨Memory.ofBytes (keyTable ks), (exec_ktBuild_eq_next_iff hl).2 ⟨ks, hks, rfl⟩, ofBytes_keyTable_wf hks,
    ?_, ?_, ?_⟩
  · intro a ha
    rw [Memory.read_ofBytes, getElem?_eq_byteAt (hsize ▸ ha)]
    rfl
  · intro x hx b hb
    rw [hsrc] at hb ⊢
    exact read_keyTable_header hlen hx hb
  · intro i _
    rw [hsrc, Memory.read_ofBytes, Memory.read_ofBytes]
    exact keyTable_body ks i

/-- Settles O26: equal selector bytes at positions that agree modulo 16 give the same index into the source. -/
theorem equalSelectorsSelectOneByte : Obligations.EqualSelectorsSelectOneByte := by
  intro s t x y _ hl h hx hy hmod hsel
  obtain ⟨ks, hlen, hsrc, htab⟩ := exec_ktBuild_next hl h
  rw [hsrc] at hsel
  obtain ⟨b, hb⟩ : ∃ b, (Memory.ofBytes ks).read x = some b :=
    ⟨byteAt ks x, by rw [Memory.read_ofBytes, getElem?_eq_byteAt (by simp only [hlen, Config.ksrcSize]; omega)]⟩
  rw [htab, read_keyTable_header hlen hx hb, read_keyTable_header hlen hy (hsel ▸ hb), hmod]

/-! ### The table depends on the key source only (41_keytable.md R128) -/

/-- Key sources in canonical form that read alike are consumed as the same bytes. -/
theorem State.keySource_congr {s s' : State} (hs : s.Inv) (hs' : s'.Inv) (h : ∀ a, s.ksrc.read a = s'.ksrc.read a) :
    s.keySource = s'.keySource := by
  have hsrc : s.ksrc = s'.ksrc := Memory.eq_of_read_eq hs.ksrc_wf.1 hs'.ksrc_wf.1 h
  rw [State.keySource, State.keySource, hsrc]

/-- Settles O24: both builds consume the same bytes, and a build leaves the key source and the length it reads. -/
theorem ktBuildIsDeterministic : Obligations.KtBuildIsDeterministic := by
  intro s s' t t' hs hs' hl hl' hread h h'
  obtain ⟨ks, hks, rfl⟩ := (exec_ktBuild_eq_next_iff hl).1 h
  obtain ⟨ks', hks', rfl⟩ := (exec_ktBuild_eq_next_iff hl').1 h'
  obtain rfl : ks = ks' := Option.some.inj (by rw [← hks, ← hks', State.keySource_congr hs hs' hread])
  have hagain : State.ksrcLen { s with ktab := Memory.ofBytes (keyTable ks), lastErr := 0 } = 0x1000 := hl
  exact ⟨rfl, (exec_ktBuild_eq_next_iff hagain).2 ⟨ks, hks, rfl⟩⟩

end Sys2Proof.Machine
end

section
/-! The cipher (42_cipher.md): both transforms as one Feistel network over a sequence of table indices, what the two
commands leave of it, and that each transform undoes the other. -/

namespace Sys2Proof.Machine

/-! ### Both transforms as one network (42_cipher.md R142, R143) -/

/-- Sixteen rounds with the round keys `T[k 0], ..., T[k 15]` from `x = DATA1`, `y = DATA0`, then the whitening words
`T[k 16]` and `T[k 17]`. -/
def feistel (k : Nat → Nat) (T : Nat → Word) (d : Word × Word) : Word × Word :=
  let xy := cipherRounds T ((List.range 16).map k) d.swap
  (xy.1 ^^^ T (k 16), xy.2 ^^^ T (k 17))

/-- The forward transform takes the table's first eighteen words in their order (R142). -/
theorem encipher_eq_feistel : encipher = feistel (fun i => i) := rfl

/-- The reverse transform takes the same words from the last one down (R143). -/
theorem decipher_eq_feistel : decipher = feistel (fun i => 17 - i) := rfl

theorem cipherRounds_range_succ (T : Nat → Word) (k : Nat → Nat) (n : Nat) (xy : Word × Word) :
    cipherRounds T ((List.range (n + 1)).map k) xy =
      cipherRound T (cipherRounds T ((List.range n).map k) xy) (k n) := by
  simp [cipherRounds, List.range_succ]

/-! ### What the commands leave (42_cipher.md R140–R143) -/

/-- With its table in hand a cipher command goes on: the data words are its transform's, the code is 0. -/
theorem applyCipher_of_table {f : (Nat → Word) → Word × Word → Word × Word} {s : State} {ws : List Word}
    (h : s.keyTableWords = some ws) :
    applyCipher f s = .next { s with data0 := (f (wordAt ws) (s.data0, s.data1)).1,
                                     data1 := (f (wordAt ws) (s.data0, s.data1)).2, lastErr := 0 } := by
  rcases applyCipher_cases f s with ⟨hnone, -⟩ | ⟨ws', hws', he⟩
  · simp [hnone] at h
  · obtain rfl : ws' = ws := Option.some.inj (hws'.symm.trans h)
    simp [he, State.complete]

/-- A byte of `KTAB` is written where its word reads. -/
theorem State.keyTableWritten_of_words {s : State} {T : Nat → Word}
    (h : ∀ w < 1042, s.ktab.readWord (4 * w) = some (T w)) : s.KeyTableWritten := by
  intro i hi
  simp only [Config.ktabSize] at hi
  obtain ⟨b0, b1, b2, b3, h0, h1, h2, h3, -⟩ := Memory.readWord_eq_some.1 (h (i / 4) (by omega))
  obtain e | e | e | e : i = 4 * (i / 4) ∨ i = 4 * (i / 4) + 1 ∨ i = 4 * (i / 4) + 2 ∨ i = 4 * (i / 4) + 3 := by omega
  · rw [e, h0]; rfl
  · rw [e, h1]; rfl
  · rw [e, h2]; rfl
  · rw [e, h3]; rfl

/-- If all words of `KTAB` read, they are the cipher's table. -/
theorem State.exists_table_of_words {s : State} {T : Nat → Word} (hs : s.Inv)
    (h : ∀ w < 1042, s.ktab.readWord (4 * w) = some (T w)) :
    ∃ ws, s.keyTableWords = some ws ∧ ∀ w < 1042, T w = wordAt ws w := by
  obtain ⟨ws, hws⟩ := Option.isSome_iff_exists.1
    ((State.keyTableWords_isSome_iff hs).2 (State.keyTableWritten_of_words h))
  exact ⟨ws, hws, fun w hw => Option.some.inj ((h w hw).symm.trans (State.readWord_ktab hws hw))⟩

/-- Sequences that follow the recurrence of R142 are the halves after each round. -/
theorem cipherRounds_of_recurrence {T x y : Nat → Word} {k : Nat → Nat} {n : Nat}
    (h : ∀ i < n, y (i + 1) = T (k i) ^^^ x i ∧ x (i + 1) = y i ^^^ roundF T (y (i + 1))) :
    cipherRounds T ((List.range n).map k) (x 0, y 0) = (x n, y n) := by
  induction n with
  | zero => rfl
  | succ n ih =>
    obtain ⟨hy, hx⟩ := h n (Nat.lt_succ_self n)
    rw [cipherRounds_range_succ, ih fun i hi => h i (Nat.lt_succ_of_lt hi), cipherRound, ← hy, ← hx]

/-- The network's command, over the words of `KTAB` as the host reads them and with the round function of R141. -/
theorem applyCipher_feistel {k : Nat → Nat} (hk : ∀ i < 18, k i < 1042) {s : State} {T x y : Nat → Word}
    {F : Word → Word} (hs : s.Inv) (hT : ∀ w < 1042, s.ktab.readWord (4 * w) = some (T w))
    (hF : ∀ z, F z = roundF T z) (hx0 : x 0 = s.data1) (hy0 : y 0 = s.data0)
    (h : ∀ i < 16, y (i + 1) = T (k i) ^^^ x i ∧ x (i + 1) = y i ^^^ F (y (i + 1))) :
    applyCipher (feistel k) s =
      .next { s with data0 := x 16 ^^^ T (k 16), data1 := y 16 ^^^ T (k 17), lastErr := 0 } := by
  obtain ⟨ws, hws, hTw⟩ := State.exists_table_of_words hs hT
  have hrounds : cipherRounds (wordAt ws) ((List.range 16).map k) (s.data1, s.data0) = (x 16, y 16) := by
    rw [← hx0, ← hy0]
    refine cipherRounds_of_recurrence fun i hi => ?_
    rw [← hTw _ (hk i (by omega)), ← roundF_congr hTw, ← hF]
    exact h i hi
  rw [applyCipher_of_table hws, hTw _ (hk 16 (by decide)), hTw _ (hk 17 (by decide))]
  simp only [feistel, Prod.swap_prod_mk, hrounds]

/-! ### The words with the commands' `OP` (30_encoding.md R86) -/

/-- `OP` alone decides the command, `CRC_UPDATE`'s byte apart (30_encoding.md R84). -/
theorem eq_of_decode_of_cmdOp {w : Word} {i j : Instr} (hi : ∀ b, i ≠ .crcUpdate b) (hd : decode w = .ok j)
    (hop : cmdOp w = cmdOp (encode i)) : j = i := by
  have hrow := (decode_eq_ok.1 hd).2
  cases i with
  | crcUpdate b => exact absurd rfl (hi b)
  | _ => exact (show cmdArg w = 0 ∧ j = _ by simpa [hop, encode] using hrow).2

/-- A command that takes no operand has no second word with its `OP`: the others are illegal. -/
theorem execute_of_cmdOp_of_ne {w : Word} {i : Instr} (hi : ∀ b, i ≠ .crcUpdate b) (hop : cmdOp w = cmdOp (encode i))
    (hw : w ≠ encode i) (s : State) : execute w s = .next { s with lastErr := 2, errSticky := true } := by
  refine execute_of_no_command (fun j hd => hw ?_) s
  rw [← eq_of_decode_of_cmdOp hi hd hop]
  exact eq_encode_of_decode hd

/-- Settles O27: the network over the indices 0, 1, ..., 17. -/
theorem cipherFwdEnciphers : Obligations.CipherFwdEnciphers :=
  ⟨fun _ _ _ _ _ hs hT hF hx0 hy0 h =>
      applyCipher_feistel (k := fun i => i) (by omega) hs hT hF hx0 hy0 h,
    decode_encode .cipherFwd, fun _ s hop hw => execute_of_cmdOp_of_ne (i := .cipherFwd) nofun hop hw s⟩

/-- Settles O28: the network over the indices 17, 16, ..., 0. -/
theorem cipherRevDeciphers : Obligations.CipherRevDeciphers :=
  ⟨fun _ _ _ _ _ hs hT hF hx0 hy0 h =>
      applyCipher_feistel (k := fun i => 17 - i) (by omega) hs hT hF hx0 hy0 h,
    decode_encode .cipherRev, fun _ s hop hw => execute_of_cmdOp_of_ne (i := .cipherRev) nofun hop hw s⟩

/-! ### Each transform undoes the other (42_cipher.md R144, R145) -/

/-- The halves exchanged, each under a table word: how a run of rounds looks from its other end. -/
def crossWhiten (T : Nat → Word) (i j : Nat) (xy : Word × Word) : Word × Word := (T j ^^^ xy.2, T i ^^^ xy.1)

theorem crossWhiten_crossWhiten (T : Nat → Word) (i j : Nat) (xy : Word × Word) :
    crossWhiten T j i (crossWhiten T i j xy) = xy := by
  simp [crossWhiten]

/-- A network is its rounds between two exchanges of the halves, the second one whitened. -/
theorem feistel_eq_crossWhiten (k : Nat → Nat) (T : Nat → Word) (d : Word × Word) :
    feistel k T d = (crossWhiten T (k 16) (k 17) (cipherRounds T ((List.range 16).map k) d.swap)).swap := by
  simp [feistel, crossWhiten, BitVec.xor_comm]

/-- One round undoes another seen from its other end: both apply the round function to the same `z`, whichever table
words mask it. -/
theorem cipherRound_crossWhiten_cipherRound (T : Nat → Word) (i j l : Nat) (xy : Word × Word) :
    cipherRound T (crossWhiten T j l (cipherRound T xy i)) l = crossWhiten T i j xy := by
  have hz : T l ^^^ (T l ^^^ (T i ^^^ xy.1)) = T i ^^^ xy.1 := by simp
  simp only [cipherRound, crossWhiten, hz]
  simp [BitVec.xor_assoc]

/-- So a run of rounds is undone by as many rounds over the indices from the last one down. -/
theorem cipherRounds_crossWhiten_cipherRounds (T : Nat → Word) (k : Nat → Nat) (n : Nat) (xy : Word × Word) :
    cipherRounds T ((List.range n).reverse.map (fun i => k (i + 2)))
        (crossWhiten T (k n) (k (n + 1)) (cipherRounds T ((List.range n).map k) xy)) =
      crossWhiten T (k 0) (k 1) xy := by
  induction n with
  | zero => rfl
  | succ n ih =>
    have hfirst : (List.range (n + 1)).reverse.map (fun i => k (i + 2)) =
        k (n + 2) :: (List.range n).reverse.map (fun i => k (i + 2)) := by simp [List.range_succ]
    rw [hfirst, cipherRounds_range_succ, cipherRounds, List.foldl_cons, cipherRound_crossWhiten_cipherRound]
    exact ih

/-- A network is undone by the one over the same indices from the last one down. -/
theorem feistel_reverse_feistel (k : Nat → Nat) (T : Nat → Word) (d : Word × Word) :
    feistel (fun i => k (17 - i)) T (feistel k T d) = d := by
  have hkeys : (List.range 16).map (fun i => k (17 - i)) = (List.range 16).reverse.map (fun i => k (i + 2)) := rfl
  have hundone := cipherRounds_crossWhiten_cipherRounds T k 16 d.swap
  rw [feistel_eq_crossWhiten, feistel_eq_crossWhiten k, Prod.swap_swap, hkeys, hundone, crossWhiten_crossWhiten,
    Prod.swap_swap]

theorem decipher_encipher (T : Nat → Word) (d : Word × Word) : decipher T (encipher T d) = d :=
  feistel_reverse_feistel (fun i => i) T d

theorem encipher_decipher (T : Nat → Word) (d : Word × Word) : encipher T (decipher T d) = d :=
  feistel_reverse_feistel (fun i => 17 - i) T d

/-- Over one table, a transform that undoes another gives a command that undoes the other's. -/
theorem applyCipher_undoes {f g : (Nat → Word) → Word × Word → Word × Word} (hfg : ∀ T d, g T (f T d) = d)
    {s : State} (hs : s.Inv) (hwritten : s.KeyTableWritten) :
    ∃ t, applyCipher f s = .next t ∧
      ∀ u : State, u.ktab = t.ktab → u.data0 = t.data0 → u.data1 = t.data1 →
        applyCipher g u = .next { u with data0 := s.data0, data1 := s.data1, lastErr := 0 } := by
  obtain ⟨ws, hws⟩ := Option.isSome_iff_exists.1 ((State.keyTableWords_isSome_iff hs).2 hwritten)
  refine ⟨_, applyCipher_of_table hws, fun u hktab h0 h1 => ?_⟩
  have huws : u.keyTableWords = some ws := by rw [State.keyTableWords, hktab]; exact hws
  rw [applyCipher_of_table huws, h0, h1, hfg]

/-- Settles O29: the reverse transform undoes the forward one. -/
theorem reverseUndoesForward : Obligations.ReverseUndoesForward := fun _ hs hwritten =>
  applyCipher_undoes decipher_encipher hs hwritten

/-- Settles O30: the forward transform undoes the reverse one. -/
theorem forwardUndoesReverse : Obligations.ForwardUndoesReverse := fun _ hs hwritten =>
  applyCipher_undoes encipher_decipher hs hwritten

end Sys2Proof.Machine
end

section
/-! Errors (60_exceptions.md): the code a CMD write ends with, the frame of an illegal word, and the idle block. -/

namespace Sys2Proof.Machine

/-! ### The completion of a CMD write (60_exceptions.md R171, R172) -/

theorem completionCode_bits (i : Instr) (s : State) :
    (completionCode i s).bits = if i = .ktBuild ∧ s.ksrcLen ≠ 0x1000 then 1 else 0 := by
  unfold completionCode
  split <;> rfl

/-- A command that goes on leaves its completion code in `LAST_ERR`. -/
theorem exec_lastErr {i : Instr} {s t : State} (h : exec i s = .next t) : t.lastErr = (completionCode i s).bits := by
  obtain ⟨c, k, d0, d1, rfl, -⟩ := exec_next h
  rfl

/-- An executed word that goes on sets `ERR_STICKY` exactly when its code is not 0, and never clears it. -/
theorem execute_errSticky {w : Word} {s u : State} (h : execute w s = .next u) :
    u.errSticky = (s.errSticky || u.lastErr != 0) := by
  obtain ⟨c, k, d0, d1, code, rfl, -⟩ := execute_next h
  rfl

/-- Settles O32: the write goes on to the executed word's state, whose code is that of the illegal word or of the
decoded command. -/
theorem everyCommandWriteCompletesStatus : Obligations.EveryCommandWriteCompletesStatus := by
  intro s t w rest hp h
  rw [step_write (tgt := .cmd) hp rfl, writeTarget] at h
  obtain ⟨u, hu, rfl⟩ := answerOk_eq_next.1 h
  have hsticky := execute_errSticky hu
  refine ⟨?_, hsticky⟩
  cases hd : decode w with
  | error e =>
    cases (execute_of_illegal hd _).symm.trans hu
    rfl
  | ok i =>
    rw [execute_of_decode hd] at hu
    exact (exec_lastErr hu).trans (completionCode_bits i _)

/-! ### An illegal word (60_exceptions.md R174) -/

/-- Settles O6: the accepted write to CMD executes the word, which raises `IllegalCommand`. -/
theorem illegalCommandChangesOnlyStatus : Obligations.IllegalCommandChangesOnlyStatus := fun _ _ _ _ hp hd =>
  step_write_at .cmd hp rfl rfl (execute_of_illegal hd _)

/-! ### The idle block (60_exceptions.md R186) -/

/-- Settles O42: by induction on the length of the run, each step being idle. -/
theorem idleBlockHoldsItsState : Obligations.IdleBlockHoldsItsState := by
  intro n s hp
  induction n with
  | zero => rfl
  | succ n ih => exact (core_run_succ (step_of_idle hp)).trans ih

end Sys2Proof.Machine
end

section
/-! Reset and hazards (70_reset_and_hazards.md): the reset event, what a step can stop on, and that nothing stops a
loaded block before the next reset. -/

namespace Sys2Proof.Machine

/-! ### The reset event (70_reset_and_hazards.md R200) -/

theorem step_of_reset {s : State} {rest : List Event} (hp : s.pending = .reset :: rest) :
    step s = .next { s with pending := rest }.resetEvent :=
  step_of_pending hp

/-- Settles O41: the fields of the reset event's state, and that an empty memory reads nowhere. -/
theorem resetEventRestoresTheResetValues : Obligations.ResetEventRestoresTheResetValues := fun _ _ hp =>
  ⟨_, step_of_reset hp, rfl, rfl, rfl, rfl, rfl, rfl, Memory.read_nil, Memory.read_nil⟩

/-! ### What stops the block (93_implementation_defined.md I1) -/

/-- The outcome goes on, or stops with a fault of a memory that is not wholly written in `s`; it is no refusal. -/
inductive StopsOnlyOnUnwritten (s : State) : Host.Outcome State Fault Refusal → Prop where
  | next (t : State) : StopsOnlyOnUnwritten s (.next t)
  | source {f : Fault} : f = .ksrcReadUnwritten ∨ f = .ktBuildUnwritten → ¬ s.KeySourceWritten →
      StopsOnlyOnUnwritten s (.fault f)
  | table {f : Fault} : f = .ktabReadUnwritten ∨ f = .cipherUnwritten → ¬ s.KeyTableWritten →
      StopsOnlyOnUnwritten s (.fault f)

/-- Only the memories of the state matter. -/
theorem StopsOnlyOnUnwritten.congr {s s' : State} {o : Host.Outcome State Fault Refusal}
    (h : StopsOnlyOnUnwritten s o) (hksrc : s'.ksrc = s.ksrc) (hktab : s'.ktab = s.ktab) :
    StopsOnlyOnUnwritten s' o := by
  cases h with
  | next t => exact .next t
  | source hf hs => exact .source hf (by rwa [State.KeySourceWritten, hksrc])
  | table hf ht => exact .table hf (by rwa [State.KeyTableWritten, hktab])

theorem StopsOnlyOnUnwritten.answerOk {s : State} {o : Host.Outcome State Fault Refusal}
    (h : StopsOnlyOnUnwritten s o) : StopsOnlyOnUnwritten s (answerOk o) := by
  cases h with
  | next t => exact .next _
  | source hf hs => exact .source hf hs
  | table hf ht => exact .table hf ht

theorem StopsOnlyOnUnwritten.exists_next {s : State} {o : Host.Outcome State Fault Refusal}
    (h : StopsOnlyOnUnwritten s o) (hsource : s.KeySourceWritten) (htable : s.KeyTableWritten) :
    ∃ t, o = .next t := by
  cases h with
  | next t => exact ⟨t, rfl⟩
  | source _ hs => exact absurd hsource hs
  | table _ ht => exact absurd htable ht

/-- In canonical form, a memory that cannot be consumed whole has an unwritten byte (log entry 4). -/
theorem State.not_keySourceWritten_of_none {s : State} (hs : s.Inv) (h : s.keySource = none) :
    ¬ s.KeySourceWritten := by
  simp [← State.keySource_isSome_iff hs, h]

theorem State.not_keyTableWritten_of_none {s : State} (hs : s.Inv) (h : s.keyTableWords = none) :
    ¬ s.KeyTableWritten := by
  simp [← State.keyTableWords_isSome_iff hs, h]

theorem applyCipher_stopsOnlyOnUnwritten (f : (Nat → Word) → Word × Word → Word × Word) {s : State} (hs : s.Inv) :
    StopsOnlyOnUnwritten s (applyCipher f s) := by
  rcases applyCipher_cases f s with ⟨hnone, he⟩ | ⟨ws, -, he⟩ <;> rw [he]
  · exact .table (.inr rfl) (State.not_keyTableWritten_of_none hs hnone)
  · exact .next _

theorem exec_stopsOnlyOnUnwritten (i : Instr) {s : State} (hs : s.Inv) : StopsOnlyOnUnwritten s (exec i s) := by
  cases i with
  | crcInit => exact .next _
  | crcUpdate b => exact .next _
  | ktBuild =>
    show StopsOnlyOnUnwritten s (execKtBuild s)
    rcases execKtBuild_cases s with ⟨-, he⟩ | ⟨-, hnone, he⟩ | ⟨-, ks, -, he⟩ <;> rw [he]
    · exact .next _
    · exact .source (.inr rfl) (State.not_keySourceWritten_of_none hs hnone)
    · exact .next _
  | cipherFwd => exact applyCipher_stopsOnlyOnUnwritten encipher hs
  | cipherRev => exact applyCipher_stopsOnlyOnUnwritten decipher hs

theorem writeTarget_stopsOnlyOnUnwritten (data : Word) (tgt : Target) {s : State} (hs : s.Inv) :
    StopsOnlyOnUnwritten s (writeTarget data s tgt) := by
  cases tgt with
  | cmd =>
    show StopsOnlyOnUnwritten s (execute data s)
    rcases execute_cases data s with ⟨i, -, he⟩ | ⟨e, -, he⟩ <;> rw [he]
    · exact exec_stopsOnlyOnUnwritten i hs
    · exact .next _
  | _ => exact .next _

/-- A word reads where its four bytes are written. -/
theorem Memory.readWord_ne_none {m : Memory} {a size : Nat} (ha : a + 3 < size)
    (h : ∀ i < size, (m.read i).isSome) : m.readWord a ≠ none := by
  obtain ⟨b0, h0⟩ := Option.isSome_iff_exists.1 (h a (by omega))
  obtain ⟨b1, h1⟩ := Option.isSome_iff_exists.1 (h (a + 1) (by omega))
  obtain ⟨b2, h2⟩ := Option.isSome_iff_exists.1 (h (a + 2) (by omega))
  obtain ⟨b3, h3⟩ := Option.isSome_iff_exists.1 (h (a + 3) ha)
  simp [Memory.readWord_eq_some.2 ⟨b0, b1, b2, b3, h0, h1, h2, h3, rfl⟩]

/-- An accepted word lies wholly inside its memory, so a read that stops has met an unwritten byte of it. -/
theorem hostRead_stopsOnlyOnUnwritten (off : Offset) (size : Nat) (s : State) :
    StopsOnlyOnUnwritten s (hostRead off size s) := by
  unfold hostRead
  split
  case h_1 => exact .next _
  case h_2 tgt hb =>
    split
    case h_2 => exact .next _
    case h_1 stop hr =>
      rcases readTarget_error hr with ⟨k, rfl, hk, rfl⟩ | ⟨k, rfl, hk, rfl⟩
      · exact .source (.inl rfl) fun hwritten => Memory.readWord_ne_none (busTarget_ksrc hb).2 hwritten hk
      · exact .table (.inl rfl) fun hwritten => Memory.readWord_ne_none (busTarget_ktab hb).2 hwritten hk

theorem hostWrite_stopsOnlyOnUnwritten (off : Offset) (size : Nat) (data : Word) {s : State} (hs : s.Inv) :
    StopsOnlyOnUnwritten s (hostWrite off size data s) := by
  unfold hostWrite
  split
  case h_1 => exact .next _
  case h_2 tgt _ => exact (writeTarget_stopsOnlyOnUnwritten data tgt hs).answerOk

theorem performEvent_stopsOnlyOnUnwritten (e : Event) {s : State} (hs : s.Inv) :
    StopsOnlyOnUnwritten s (performEvent e s) := by
  rcases e with ⟨off, size | ⟨size, data⟩⟩ | _
  · exact hostRead_stopsOnlyOnUnwritten off size s
  · exact hostWrite_stopsOnlyOnUnwritten off size data hs
  · exact .next _

theorem step_stopsOnlyOnUnwritten {s : State} (hs : s.Inv) : StopsOnlyOnUnwritten s (step s) := by
  cases hp : s.pending with
  | nil => rw [step_of_idle hp]; exact .next s
  | cons e rest =>
    rw [step_of_pending hp]
    have hrest : State.Inv { s with pending := rest } := hs.of_block_eq rfl
    exact (performEvent_stopsOnlyOnUnwritten e hrest).congr rfl rfl

/-! ### A loaded block (70_reset_and_hazards.md R203) -/

/-- A written byte stays written under any write. -/
theorem Memory.read_writeWord_isSome {m : Memory} {c : Nat} (a : Nat) (v : Word) (h : (m.read c).isSome) :
    ((m.writeWord a v).read c).isSome := by
  rw [Memory.read_writeWord]
  split
  · rfl
  · exact h

theorem writeTarget_keySourceWritten {data : Word} {s u : State} {tgt : Target}
    (h : writeTarget data s tgt = .next u) (hs : s.KeySourceWritten) : u.KeySourceWritten := by
  cases tgt with
  | cmd => obtain ⟨c, k, d0, d1, code, rfl, -⟩ := execute_next h; exact hs
  | ksrc k => cases h; exact fun i hi => Memory.read_writeWord_isSome k data (hs i hi)
  | _ => cases h; exact hs

/-- A built table is written at every byte (41_keytable.md R125). -/
theorem read_keyTable_isSome {s : State} {ks : List Byte} (hks : s.keySource = some ks) {i : Nat}
    (hi : i < Config.ktabSize) : ((Memory.ofBytes (keyTable ks)).read i).isSome := by
  have hlen : (keyTable ks).length = Config.ktabSize := by
    rw [keyTable_length, (State.keySource_eq_some.1 hks).1]
    rfl
  rw [Memory.read_ofBytes, List.getElem?_eq_getElem (hlen ▸ hi)]
  rfl

theorem execute_keyTableWritten {w : Word} {s u : State} (h : execute w s = .next u) (hs : s.KeyTableWritten) :
    u.KeyTableWritten := by
  obtain ⟨c, k, d0, d1, code, rfl, -, hk, -⟩ := execute_next h
  intro i hi
  show (k.read i).isSome
  by_cases hkeep : k = s.ktab
  · exact hkeep ▸ hs i hi
  · obtain ⟨-, -, ks, hks, rfl⟩ := hk hkeep
    exact read_keyTable_isSome hks hi

theorem writeTarget_keyTableWritten {data : Word} {s u : State} {tgt : Target}
    (h : writeTarget data s tgt = .next u) (hs : s.KeyTableWritten) : u.KeyTableWritten := by
  cases tgt with
  | cmd => exact execute_keyTableWritten h hs
  | ktab k => cases h; exact fun i hi => Memory.read_writeWord_isSome k data (hs i hi)
  | _ => cases h; exact hs

/-- Both memories of the block are wholly written, and no reset is in store. -/
structure State.Loaded (s : State) : Prop where
  inv : s.Inv
  source : s.KeySourceWritten
  table : s.KeyTableWritten
  no_reset : Event.reset ∉ s.pending

/-- A step that goes on keeps the block loaded: only a reset takes the mark of a written byte away. -/
theorem State.Loaded.of_step {s t : State} (hs : s.Loaded) (h : step s = .next t) : t.Loaded := by
  obtain ⟨hinv, hsource, htable, hreset⟩ := hs
  have hwritten : t.KeySourceWritten ∧ t.KeyTableWritten := by
    rcases step_next h with ⟨-, rfl⟩ | ⟨rest, hp, -⟩ | ⟨off, size, rest, r, -, rfl⟩ |
      ⟨off, size, data, rest, -, -, rfl⟩ | ⟨off, data, rest, tgt, u, -, -, hu, rfl⟩
    · exact ⟨hsource, htable⟩
    · exact absurd (hp ▸ List.mem_cons_self) hreset
    · exact ⟨hsource, htable⟩
    · exact ⟨hsource, htable⟩
    · have hsource : u.KeySourceWritten := writeTarget_keySourceWritten hu hsource
      have htable : u.KeyTableWritten := writeTarget_keyTableWritten hu htable
      exact ⟨hsource, htable⟩
  refine ⟨stepKeepsInv s t hinv h, hwritten.1, hwritten.2, fun hmem => hreset ?_⟩
  rw [step_pending h] at hmem
  exact List.mem_of_mem_tail hmem

theorem State.Loaded.safeRun (n : Nat) {s : State} (hs : s.Loaded) : SafeRun n s := by
  induction n generalizing s with
  | zero => exact ⟨s, rfl⟩
  | succ n ih =>
    obtain ⟨t, ht⟩ := (step_stopsOnlyOnUnwritten hs.inv).exists_next hs.source hs.table
    obtain ⟨u, hu⟩ := ih (hs.of_step ht)
    exact ⟨u, (core_run_succ ht).trans hu⟩

/-- Settles O47: a loaded block's step goes on and keeps it loaded, so a run of any length goes on. -/
theorem loadedBlockNeverStops : Obligations.LoadedBlockNeverStops := fun n _ hinv hsource htable hreset =>
  State.Loaded.safeRun n ⟨hinv, hsource, htable, hreset⟩

end Sys2Proof.Machine
end

section
/-! Unwritten memory (93_implementation_defined.md I1): the commands and the window reads stop exactly on an unwritten
byte, and a step stops on nothing else. -/

namespace Sys2Proof.Machine

/-! ### An unwritten byte of a memory -/

theorem State.not_keySourceWritten_iff {s : State} : ¬ s.KeySourceWritten ↔ ∃ i < 0x1000, s.ksrc.read i = none := by
  simp [State.KeySourceWritten, Config.ksrcSize]

theorem State.not_keyTableWritten_iff {s : State} : ¬ s.KeyTableWritten ↔ ∃ i < 0x1048, s.ktab.read i = none := by
  simp [State.KeyTableWritten, Config.ktabSize]

/-- The key source cannot be consumed exactly while a byte of it is unwritten. -/
theorem State.keySource_eq_none_iff {s : State} (hs : s.Inv) :
    s.keySource = none ↔ ∃ i < 0x1000, s.ksrc.read i = none := by
  rw [← State.not_keySourceWritten_iff, ← State.keySource_isSome_iff hs, Option.not_isSome_iff_eq_none]

/-- The key table cannot be consumed exactly while a byte of it is unwritten. -/
theorem State.keyTableWords_eq_none_iff {s : State} (hs : s.Inv) :
    s.keyTableWords = none ↔ ∃ i < 0x1048, s.ktab.read i = none := by
  rw [← State.not_keyTableWritten_iff, ← State.keyTableWords_isSome_iff hs, Option.not_isSome_iff_eq_none]

/-! ### The commands -/

/-- A build stops exactly when it passes its size check and cannot consume the key source. -/
theorem exec_ktBuild_eq_fault_iff {s : State} :
    exec .ktBuild s = .fault .ktBuildUnwritten ↔ s.ksrcLen = 0x1000 ∧ s.keySource = none := by
  show execKtBuild s = _ ↔ _
  rcases execKtBuild_cases s with ⟨hl, he⟩ | ⟨hl, hnone, he⟩ | ⟨hl, ks, hks, he⟩
  · exact iff_of_false (by simp [he]) fun h => hl h.1
  · exact iff_of_true he ⟨hl, hnone⟩
  · exact iff_of_false (by simp [he]) (by simp [hks])

/-- A cipher command stops exactly when it cannot consume the key table. -/
theorem applyCipher_eq_fault_iff (f : (Nat → Word) → Word × Word → Word × Word) (s : State) :
    applyCipher f s = .fault .cipherUnwritten ↔ s.keyTableWords = none := by
  rcases applyCipher_cases f s with ⟨hnone, he⟩ | ⟨ws, hws, he⟩
  · exact iff_of_true he hnone
  · exact iff_of_false (by simp [he]) (by simp [hws])

/-- Settles O23: past its size check, a build stops for want of the key source only. -/
theorem ktBuildStopsExactlyOnUnwrittenSource : Obligations.KtBuildStopsExactlyOnUnwrittenSource := fun _ hs =>
  exec_ktBuild_eq_fault_iff.trans (and_congr_right' (State.keySource_eq_none_iff hs))

/-- Settles O31: both commands are the one use of the key table, with different transforms. -/
theorem cipherStopsExactlyOnUnwrittenTable : Obligations.CipherStopsExactlyOnUnwrittenTable := fun s hs =>
  ⟨(applyCipher_eq_fault_iff encipher s).trans (State.keyTableWords_eq_none_iff hs),
    (applyCipher_eq_fault_iff decipher s).trans (State.keyTableWords_eq_none_iff hs)⟩

/-! ### The step -/

/-- Settles O48: what a step can stop on, with the unwritten byte at hand. -/
theorem onlyUnwrittenBytesStopAStep : Obligations.OnlyUnwrittenBytesStopAStep := by
  intro s hs
  have hstops := step_stopsOnlyOnUnwritten hs
  refine ⟨fun r hr => ?refused, fun f hf => ?fault⟩
  case refused => rw [hr] at hstops; cases hstops
  case fault =>
    rw [hf] at hstops
    cases hstops with
    | source hkind hsource => exact .inl ⟨hkind, State.not_keySourceWritten_iff.1 hsource⟩
    | table hkind htable => exact .inr ⟨hkind, State.not_keyTableWritten_iff.1 htable⟩

/-! ### Window reads -/

/-- A word with an unwritten byte has no value. -/
theorem Memory.readWord_eq_none {m : Memory} {a j : Nat} (hj : j < 4) (h : m.read (a + j) = none) :
    m.readWord a = none := by
  refine Option.eq_none_iff_forall_ne_some.2 fun v hv => ?_
  obtain ⟨b0, b1, b2, b3, h0, h1, h2, h3, -⟩ := Memory.readWord_eq_some.1 hv
  interval_cases j <;> simp [h0, h1, h2, h3] at h

theorem readWindow_of_unwritten {m : Memory} {a j : Nat} (stop : Fault) (hj : j < 4) (h : m.read (a + j) = none) :
    readWindow m a stop = .error stop := by
  simp only [readWindow, Memory.readWord_eq_none hj h]

/-- A 32-bit read at the offset of a target that holds no value stops as the target does. -/
theorem step_read_stops {s : State} {off : Offset} {rest : List Event} {stop : Fault} (tgt : Target)
    (hp : s.pending = .txn ⟨off, .read 4⟩ :: rest) (hwf : tgt.wellFormed = true) (ho : off.toNat = targetOffset tgt)
    (hr : readTarget s tgt = .error stop) : step s = .fault stop := by
  have hb : busTarget off 4 = some tgt := busTarget_four_eq_some_iff.2 ⟨hwf, ho.symm⟩
  have hread : readTarget { s with pending := rest } tgt = .error stop := (readTarget_congr rfl tgt).trans hr
  rw [step_of_pending hp]
  simp only [performEvent, transact, hostRead, hb, hread]

/-- Settles O9: the offset selects the window's word, and the word has no value. -/
theorem unwrittenWindowReadStops : Obligations.UnwrittenWindowReadStops := by
  intro s off rest hp
  refine ⟨fun k hk j hj ho hnone => ?ksrc, fun w hw j hj ho hnone => ?ktab⟩
  case ksrc =>
    exact step_read_stops (.ksrc (4 * k)) hp (Target.ksrc_wellFormed_iff.2 (by omega)) ho
      (readWindow_of_unwritten _ hj hnone)
  case ktab =>
    exact step_read_stops (.ktab (4 * w)) hp (Target.ktab_wellFormed_iff.2 (by omega)) ho
      (readWindow_of_unwritten _ hj hnone)

end Sys2Proof.Machine
end
